-- ==== Sys2Proof/Word.lean ====
section
/-! DEFINITION. The words of the block (00_scope.md section 6): unsigned values of fixed width, bit 0 the least
significant. The widths of 00_scope.md rule R2 that are types here: CRC16_WIDTH and LFSR_WIDTH (`U16`), CRC32_WIDTH
(`U32`), KS_WIDTH (`U8`), ADDR_WIDTH (`Addr`), CMD_WIDTH (`CommandWord`). -/

namespace Sys2Proof

/-- A data byte, and a keystream byte (KS_WIDTH = 8). -/
abbrev U8 := BitVec 8

/-- The CRC-16 accumulator, a cipher key, an LFSR value (CRC16_WIDTH = LFSR_WIDTH = 16). -/
abbrev U16 := BitVec 16

/-- The CRC-32 accumulator, a command's argument (CRC32_WIDTH = 32). -/
abbrev U32 := BitVec 32

/-- A flash byte address (ADDR_WIDTH = 32, 20_memory.md rule R31); `+` on it is modulo 2^32 (R38). -/
abbrev Addr := BitVec 32

/-- A command word (CMD_WIDTH = 40, 30_encoding.md rule R50). -/
abbrev CommandWord := BitVec 40

end Sys2Proof
end

