-- ==== Sys2Proof/Syntax.lean ====
section
/-! DEFINITION. The ten commands (30_encoding.md rule R54; spec/opcode_table.json, one constructor per row), their
mnemonics and formats, the pseudo-commands (R58), and commands as an assembler reads them (R57). An operand's type is
its width, so every term of `Instr` is a command of the block. -/

namespace Sys2Proof

/-- A command with its operand. -/
inductive Instr where
  /-- `C16.LD imm16` (40_crc16.md rule R73). -/
  | c16Ld (imm16 : U16)
  /-- `C16.B imm8` (R74). -/
  | c16B (imm8 : U8)
  /-- `C16.RD` (R75). -/
  | c16Rd
  /-- `C32.LD imm32` (41_crc32.md rule R89). -/
  | c32Ld (imm32 : U32)
  /-- `C32.B imm8` (R90). -/
  | c32B (imm8 : U8)
  /-- `C32.RD` (R91). -/
  | c32Rd
  /-- `CI.KEY imm16` (42_cipher.md rule R108). -/
  | ciKey (imm16 : U16)
  /-- `CI.LIN` (R109). -/
  | ciLin
  /-- `CI.SFC imm32` (R110). -/
  | ciSfc (imm32 : Addr)
  /-- `CI.B imm8` (R111). -/
  | ciB (imm8 : U8)
  deriving DecidableEq, Repr

/-- The mnemonics of rule R54's table. -/
inductive Mnemonic where
  | c16Ld | c16B | c16Rd | c32Ld | c32B | c32Rd | ciKey | ciLin | ciSfc | ciB
  deriving DecidableEq, Repr

/-- The four formats of rule R51. -/
inductive Format where
  /-- no operand -/
  | N
  /-- `imm8` -/
  | B
  /-- `imm16` -/
  | H
  /-- `imm32` -/
  | W
  deriving DecidableEq, Repr

/-- The format of each command (rules R51 and R54). -/
def Mnemonic.format : Mnemonic → Format
  | .c16Ld => .H
  | .c16B => .B
  | .c16Rd => .N
  | .c32Ld => .W
  | .c32B => .B
  | .c32Rd => .N
  | .ciKey => .H
  | .ciLin => .N
  | .ciSfc => .W
  | .ciB => .B

/-- How a mnemonic is written (rule R57: upper case with a dot). -/
def Mnemonic.text : Mnemonic → String
  | .c16Ld => "C16.LD"
  | .c16B => "C16.B"
  | .c16Rd => "C16.RD"
  | .c32Ld => "C32.LD"
  | .c32B => "C32.B"
  | .c32Rd => "C32.RD"
  | .ciKey => "CI.KEY"
  | .ciLin => "CI.LIN"
  | .ciSfc => "CI.SFC"
  | .ciB => "CI.B"

/-- All ten mnemonics. -/
def Mnemonic.all : List Mnemonic :=
  [.c16Ld, .c16B, .c16Rd, .c32Ld, .c32B, .c32Rd, .ciKey, .ciLin, .ciSfc, .ciB]

/-- The mnemonic of a command. -/
def Instr.mnemonic : Instr → Mnemonic
  | .c16Ld _ => .c16Ld
  | .c16B _ => .c16B
  | .c16Rd => .c16Rd
  | .c32Ld _ => .c32Ld
  | .c32B _ => .c32B
  | .c32Rd => .c32Rd
  | .ciKey _ => .ciKey
  | .ciLin => .ciLin
  | .ciSfc _ => .ciSfc
  | .ciB _ => .ciB

/-- The three units of 00_scope.md rule R1. -/
inductive FunctionalUnit where
  /-- the CRC-16 generator -/
  | crc16
  /-- the CRC-32 generator -/
  | crc32
  /-- the LFSR keystream engine with the XOR datapath -/
  | cipher
  deriving DecidableEq, Repr

/-- The unit a command belongs to (rule R54: the high nibble of `op` names it). -/
def Instr.unit : Instr → FunctionalUnit
  | .c16Ld _ => .crc16
  | .c16B _ => .crc16
  | .c16Rd => .crc16
  | .c32Ld _ => .crc32
  | .c32B _ => .crc32
  | .c32Rd => .crc32
  | .ciKey _ => .cipher
  | .ciLin => .cipher
  | .ciSfc _ => .cipher
  | .ciB _ => .cipher

/-- The pseudo-commands of rule R58. They are no commands of the block: an assembler replaces them. -/
inductive Pseudo where
  /-- `C16.CLR` -/
  | c16Clr
  /-- `C32.INIT` -/
  | c32Init
  /-- `CI.HDR` -/
  | ciHdr
  /-- `C16.DATA b0 b1 ... bn` -/
  | c16Data (bytes : List U8)
  /-- `C32.DATA b0 b1 ... bn` -/
  | c32Data (bytes : List U8)
  /-- `CI.DATA b0 b1 ... bn` -/
  | ciData (bytes : List U8)
  deriving DecidableEq, Repr

/-- A command as an assembler reads it: a mnemonic and the numbers written after it. Which of these are commands of
the block is `RawCommand.wf`. -/
structure RawCommand where
  name : Mnemonic
  operands : List Nat
  deriving DecidableEq, Repr

end Sys2Proof
end

