-- ==== Sys2Proof/Machine/Operands.lean ====
section
/-! DEFINITION. The fields of a command word and the operand forms (30_encoding.md rules R50, R51, R53), and the
little-endian assembly of bytes that rules R34 and R52 use. -/

namespace Sys2Proof

/-- `op`, bits 39 to 32 (rule R50). -/
def opField (w : CommandWord) : U8 := w.extractLsb' 32 8

/-- `arg`, bits 31 to 0 (rule R50). -/
def argField (w : CommandWord) : U32 := w.extractLsb' 0 32

/-- The word made of an opcode and an argument (rule R50). -/
def commandWord (op : U8) (arg : U32) : CommandWord := op ++ arg

/-- `imm8 = arg[7:0]` (rule R53). -/
def imm8Of (arg : U32) : U8 := arg.extractLsb' 0 8

/-- `imm16 = arg[15:0]` (rule R53). -/
def imm16Of (arg : U32) : U16 := arg.extractLsb' 0 16

/-- `imm32 = arg[31:0]` (rule R53). -/
def imm32Of (arg : U32) : U32 := arg

/-- The bits of `arg` that must be 0 in a format (rule R51). -/
def Format.mustBeZero : Format → U32
  | .N => 0xFFFFFFFF#32
  | .B => 0xFFFFFF00#32
  | .H => 0xFFFF0000#32
  | .W => 0x00000000#32

/-- Two bytes read little-endian, the byte at the lower offset in bits 7:0 (20_memory.md rule R34). -/
def leWord16 (b0 b1 : U8) : U16 := b1 ++ b0

/-- Four bytes read little-endian (20_memory.md rule R34, 30_encoding.md rule R52). -/
def leWord32 (b0 b1 b2 b3 : U8) : U32 := b3 ++ b2 ++ b1 ++ b0

end Sys2Proof
end

