-- ==== Sys2Proof/WellFormed.lean ====
section
/-! DEFINITION. What makes a written command or pseudo-command well formed. A term of `Instr` needs no check: its
operand's type is the operand's width (30_encoding.md rule R51), so it is well formed by construction. -/

namespace Sys2Proof

/-- The number of bits of a format's operand; N has none (rule R51). -/
def Format.operandBits : Format → Option Nat
  | .N => none
  | .B => some 8
  | .H => some 16
  | .W => some 32

/-- A written command is well formed when it has exactly the operand its format asks for (R51) and the operand, an
unsigned number (R53), fits the operand's width. -/
def RawCommand.wf (c : RawCommand) : Bool :=
  match c.name.format.operandBits, c.operands with
  | none, [] => true
  | some n, [v] => decide (v < 2 ^ n)
  | _, _ => false

/-- A `DATA` pseudo-command lists at least one byte, `b0` (rule R58). DEDUCED (log entry 10). -/
def Pseudo.wf : Pseudo → Bool
  | .c16Clr => true
  | .c32Init => true
  | .ciHdr => true
  | .c16Data bytes => !bytes.isEmpty
  | .c32Data bytes => !bytes.isEmpty
  | .ciData bytes => !bytes.isEmpty

end Sys2Proof
end

