-- ==== Sys2Proof/Decode.lean ====
section
/-! DEFINITION. The opcode map of 30_encoding.md rule R54, the decoder (total on every 40-bit word, and on every byte
list), the encoder, the serialisation of rule R52 and the expansion of pseudo-commands (rule R58). -/

namespace Sys2Proof

/-- The opcode of each command (rule R54). -/
def Mnemonic.opcode : Mnemonic → U8
  | .c16Ld => 0x10#8
  | .c16B => 0x11#8
  | .c16Rd => 0x12#8
  | .c32Ld => 0x20#8
  | .c32B => 0x21#8
  | .c32Rd => 0x22#8
  | .ciKey => 0x30#8
  | .ciLin => 0x31#8
  | .ciSfc => 0x32#8
  | .ciB => 0x33#8

/-- The command an opcode names, if it is in a row of rule R54's table. -/
def mnemonicOf (op : U8) : Option Mnemonic :=
  Mnemonic.all.find? (fun m => m.opcode == op)

/-- The command of a mnemonic with its operand taken from `arg` (rule R53). -/
def Mnemonic.build (m : Mnemonic) (arg : U32) : Instr :=
  match m with
  | .c16Ld => .c16Ld (imm16Of arg)
  | .c16B => .c16B (imm8Of arg)
  | .c16Rd => .c16Rd
  | .c32Ld => .c32Ld (imm32Of arg)
  | .c32B => .c32B (imm8Of arg)
  | .c32Rd => .c32Rd
  | .ciKey => .ciKey (imm16Of arg)
  | .ciLin => .ciLin
  | .ciSfc => .ciSfc (imm32Of arg)
  | .ciB => .ciB (imm8Of arg)

/-- Why words or bytes are no command. The names are the model's: all illegal words behave alike (rule R55). -/
inductive DecodeError where
  /-- `op` is in no row of the table (rule R54). Safe: the word is refused, as the spec says. -/
  | unknownOpcode (op : U8)
  /-- `op` is in a row, and a bit of `arg` that must be zero is set (rules R51, R54). Safe, as above. -/
  | mustBeZeroBitSet (name : Mnemonic) (arg : U32)
  /-- fewer than the 5 bytes of a word are left (rule R52); only `decodeBytes` answers it. Safe. -/
  | tooFewBytes (left : Nat)
  deriving DecidableEq, Repr

/-- Decode one command word (rules R50 to R55). -/
def decode (w : CommandWord) : Except DecodeError Instr :=
  match mnemonicOf (opField w) with
  | none => .error (.unknownOpcode (opField w))
  | some m =>
    if argField w &&& m.format.mustBeZero = 0#32 then .ok (m.build (argField w))
    else .error (.mustBeZeroBitSet m (argField w))

/-- The argument of a command's word: its operand, zeros above it (rule R51). -/
def Instr.argument : Instr → U32
  | .c16Ld imm => imm.setWidth 32
  | .c16B imm => imm.setWidth 32
  | .c16Rd => 0#32
  | .c32Ld imm => imm
  | .c32B imm => imm.setWidth 32
  | .c32Rd => 0#32
  | .ciKey imm => imm.setWidth 32
  | .ciLin => 0#32
  | .ciSfc imm => imm
  | .ciB imm => imm.setWidth 32

/-- The word of a command (rules R50, R51, R54). -/
def encode (i : Instr) : CommandWord := commandWord i.mnemonic.opcode i.argument

/-- The words of a command list. -/
def encodeAll (is : List Instr) : List CommandWord := is.map encode

/-! ### Rule R54's table, as it stands in the spec -/

/-- One row of rule R54's table. -/
structure TableRow where
  name : Mnemonic
  op : U8
  format : Format
  matchBits : CommandWord
  mask : CommandWord
  deriving DecidableEq, Repr

/-- The ten rows of rule R54's table, `match` and `mask` as the spec prints them. The decoder does not read them; that
it agrees with them is a statement. -/
def opcodeTable : List TableRow :=
  [⟨.c16Ld, 0x10#8, .H, 0x1000000000#40, 0xFFFFFF0000#40⟩,
   ⟨.c16B, 0x11#8, .B, 0x1100000000#40, 0xFFFFFFFF00#40⟩,
   ⟨.c16Rd, 0x12#8, .N, 0x1200000000#40, 0xFFFFFFFFFF#40⟩,
   ⟨.c32Ld, 0x20#8, .W, 0x2000000000#40, 0xFF00000000#40⟩,
   ⟨.c32B, 0x21#8, .B, 0x2100000000#40, 0xFFFFFFFF00#40⟩,
   ⟨.c32Rd, 0x22#8, .N, 0x2200000000#40, 0xFFFFFFFFFF#40⟩,
   ⟨.ciKey, 0x30#8, .H, 0x3000000000#40, 0xFFFFFF0000#40⟩,
   ⟨.ciLin, 0x31#8, .N, 0x3100000000#40, 0xFFFFFFFFFF#40⟩,
   ⟨.ciSfc, 0x32#8, .W, 0x3200000000#40, 0xFF00000000#40⟩,
   ⟨.ciB, 0x33#8, .B, 0x3300000000#40, 0xFFFFFFFF00#40⟩]

/-- `w & mask = match` (rule R54). -/
def TableRow.holdsFor (r : TableRow) (w : CommandWord) : Bool := (w &&& r.mask) == r.matchBits

/-- The rows a word matches. -/
def matchingRows (w : CommandWord) : List TableRow := opcodeTable.filter (fun r => r.holdsFor w)

/-- A word is legal if and only if it matches exactly one row (rule R54). -/
def legalWord (w : CommandWord) : Bool := (matchingRows w).length == 1

/-! ### Serialisation (rule R52) -/

/-- The 5 bytes of a word: `op`, then `arg` little-endian (rule R52). -/
def wordBytes (w : CommandWord) : List U8 :=
  [opField w, (argField w).extractLsb' 0 8, (argField w).extractLsb' 8 8,
   (argField w).extractLsb' 16 8, (argField w).extractLsb' 24 8]

/-- The word of 5 bytes (rule R52). -/
def wordOfBytes (op a0 a1 a2 a3 : U8) : CommandWord := commandWord op (leWord32 a0 a1 a2 a3)

/-- Decode the first command of a byte list, and give the bytes after it (rule R52). -/
def decodeBytes : List U8 → Except DecodeError (Instr × List U8)
  | op :: a0 :: a1 :: a2 :: a3 :: rest =>
    match decode (wordOfBytes op a0 a1 a2 a3) with
    | .ok i => .ok (i, rest)
    | .error e => .error e
  | bytes => .error (.tooFewBytes bytes.length)

/-- The bytes of a list of words, command `i` at byte offset `5i` (rule R52). -/
def serialise (ws : List CommandWord) : List U8 := ws.flatMap wordBytes

/-- The words of a byte list. A rest of fewer than 5 bytes is no word: none. DESIGN CHOICE (log entry 5). -/
def deserialise : List U8 → Option (List CommandWord)
  | [] => some []
  | op :: a0 :: a1 :: a2 :: a3 :: rest => (deserialise rest).map (fun ws => wordOfBytes op a0 a1 a2 a3 :: ws)
  | _ => none

/-! ### Pseudo-commands (rule R58) -/

/-- The exact expansion of each pseudo-command (rule R58). -/
def Pseudo.expand : Pseudo → List Instr
  | .c16Clr => [.c16Ld 0x0000#16]
  | .c32Init => [.c32Ld 0x26536734#32]
  | .ciHdr => [.ciKey 0xFFFF#16, .ciLin]
  | .c16Data bytes => bytes.map .c16B
  | .c32Data bytes => bytes.map .c32B
  | .ciData bytes => bytes.map .ciB

/-! ### The host's question -/

/-- What `decode` reads from a word whose bits are numbered as spec/opcode_table.json numbers them: the table's
numbering is the word's own (rule R50). Bits above `nbits` are 0; no word is longer than 40 bits. -/
def decodeTableWord (nbits w : Nat) : Option Instr :=
  if nbits ≤ 40 then (decode (BitVec.ofNat 40 (w % 2 ^ nbits))).toOption else none

end Sys2Proof
end

