-- ==== Sys2Proof/Config.lean ====
section
/-! DEFINITION. The parameters of 00_scope.md rule R2 (configuration, no command changes them: 10_state.md rule R23).
UNVERIFIED against any device: the literals are unaudited (93_implementation_defined.md U1; log entry 8).
The widths of R2 are the types of Word.lean. LFSR_STEPS_PER_BYTE = 1 is the shape of `cipherByte` and `sfcState`
(42_cipher.md rules R103, R106), which the spec writes with one step a byte. The spec leaves no value of the block open,
so this file holds no free value (93_implementation_defined.md section 1). -/

namespace Sys2Proof.Config

/-- CRC16_POLY: generator polynomial, normal form, x^16 implicit. -/
def crc16Poly : U16 := 0x1021#16

/-- CRC16_REFLECT. -/
def crc16Reflect : Bool := false

/-- CRC16_XOROUT. -/
def crc16XorOut : U16 := 0x0000#16

/-- CRC16_INIT: the default init. -/
def crc16Init : U16 := 0x0000#16

/-- CRC32_POLY: generator polynomial, normal form, x^32 implicit. -/
def crc32Poly : U32 := 0x04C11DB7#32

/-- CRC32_POLY_R: the constant the right-shifting register XORs in (41_crc32.md rule R85: the bit reversal of
CRC32_POLY). -/
def crc32PolyR : U32 := 0xEDB88320#32

/-- CRC32_REFLECT. -/
def crc32Reflect : Bool := true

/-- CRC32_XOROUT. -/
def crc32XorOut : U32 := 0x00000000#32

/-- CRC32_INIT: the default init. -/
def crc32Init : U32 := 0x26536734#32

/-- LFSR_POLY: XORed in when bit 15 was set before the shift. -/
def lfsrPoly : U16 := 0x1021#16

/-- HEADER_KEY. -/
def headerKey : U16 := 0xFFFF#16

/-- SFC_BLOCK: bytes of an SFC block. -/
def sfcBlock : Nat := 32

/-- SFC_SHIFT: the right shift of a block's start address in the key derivation. -/
def sfcShift : Nat := 2

end Sys2Proof.Config
end

