-- ==== Sys2Proof/Machine/State.lean ====
section
/-! DEFINITION. The state of one instance of the block, the reasons a step can stop, and the state after reset
(10_state.md). -/

namespace Sys2Proof.Machine

/-- The addressing mode that the one-bit register `MODE` holds (10_state.md rule R15). Its bit is `Mode.toBit`. -/
inductive Mode where
  /-- 0: linear, the document's header mode -/
  | lin
  /-- 1: flash-block mapped, the document's SFC mode -/
  | sfc
  deriving DecidableEq, Repr

/-- What the block emits on the result port (10_state.md rule R21). -/
inductive Event where
  /-- emitted by `CI.B` -/
  | outByte (v : U8)
  /-- emitted by `C16.RD` -/
  | outC16 (v : U16)
  /-- emitted by `C32.RD` -/
  | outC32 (v : U32)
  deriving DecidableEq, Repr

/-- The reasons a step stops the block. -/
inductive Fault where
  /-- `IllegalCommand(w)` with the index `ci` of the word (60_exceptions.md rule R131): raised by `step`, and by
  nothing else, when the word at `ci` is not legal, and again by every later step until reset. Safe: the spec's own
  fault, with no effect on any register. -/
  | illegalCommand (w : CommandWord) (ci : Nat)
  deriving DecidableEq, Repr

/-- The reasons a command has no meaning in this model. -/
inductive Refusal where
  /-- A command whose arm of `exec` gives it no meaning yet; no arm answers so now. Safe: the machine stops. -/
  | notModelled (mnemonic : String)
  deriving DecidableEq, Repr

/-- The state: the six registers of rule R10, the event history (R21), and what a model that runs a command list
keeps (R18, R59, 60_exceptions.md R131). -/
structure State where
  /-- `C16` (R11) -/
  c16 : U16
  /-- `C32` (R12) -/
  c32 : U32
  /-- `KEY` (R13) -/
  key : U16
  /-- `LFSR` (R14) -/
  lfsr : U16
  /-- `MODE` (R15) -/
  mode : Mode
  /-- `ADDR` (R16) -/
  addr : Addr
  /-- the result-port event history, oldest first (R21) -/
  events : List Event
  /-- the words the host has presented (30_encoding.md R59). DESIGN CHOICE: the model's field (log entry 1) -/
  cmds : List CommandWord
  /-- `ci`, the index of the next command (R18) -/
  ci : Nat
  /-- the recorded fault, if there is one (60_exceptions.md R131; cleared by reset, 70_reset_and_hazards.md R150;
  log entry 3) -/
  fault : Option Fault
  deriving DecidableEq, Repr

/-- The state after reset (10_state.md rule R24, 70_reset_and_hazards.md rule R150). No word has been presented
(DESIGN CHOICE, log entry 1). -/
def State.reset : State where
  c16 := Config.crc16Init
  c32 := Config.crc32Init
  key := Config.headerKey
  lfsr := Config.headerKey
  mode := .lin
  addr := 0x00000000#32
  events := []
  cmds := []
  ci := 0
  fault := none

/-- What one step or one command answers. -/
abbrev Result := Host.Outcome State Fault Refusal

/-- The six registers, which are the whole architectural state (10_state.md rule R10). -/
structure Registers where
  c16 : U16
  c32 : U32
  key : U16
  lfsr : U16
  mode : Mode
  addr : Addr
  deriving DecidableEq, Repr

/-- The registers of a state. -/
def State.registers (s : State) : Registers := ⟨s.c16, s.c32, s.key, s.lfsr, s.mode, s.addr⟩

end Sys2Proof.Machine
end

