-- ==== Sys2Proof/Machine/Ops.lean ====
section
/-! DEFINITION. The named operations over the state: register writes, the result port, the command list, and the one
fault. The block has no memory (20_memory.md rule R30), hence no memory operation. -/

namespace Sys2Proof.Machine

/-! ### Register writes (`R <- v`, 00_scope.md section 6) -/

/-- `C16 <- v`. -/
def State.setC16 (s : State) (v : U16) : State := { s with c16 := v }

/-- `C32 <- v`. -/
def State.setC32 (s : State) (v : U32) : State := { s with c32 := v }

/-- `KEY <- v`. -/
def State.setKey (s : State) (v : U16) : State := { s with key := v }

/-- `LFSR <- v`. -/
def State.setLfsr (s : State) (v : U16) : State := { s with lfsr := v }

/-- `MODE <- v`. -/
def State.setMode (s : State) (v : Mode) : State := { s with mode := v }

/-- `ADDR <- v`. -/
def State.setAddr (s : State) (v : Addr) : State := { s with addr := v }

/-- `Emit(ev)`: append an event to the result port (10_state.md rule R21). -/
def State.emit (s : State) (ev : Event) : State := { s with events := s.events ++ [ev] }

/-! ### The command list (30_encoding.md rule R59) -/

/-- The word of command number `ci`, if `ci` is less than the length of the list (rule R59). -/
def State.fetch (s : State) : Option CommandWord := s.cmds[s.ci]?

/-- `ci <- ci + 1` (rule R59). -/
def State.advanceCi (s : State) : State := { s with ci := s.ci + 1 }

/-- The host presents further words, after those it has presented (rules R59, R60). -/
def State.present (s : State) (ws : List CommandWord) : State := { s with cmds := s.cmds ++ ws }

/-- The start of a run of a command list: the list, and `ci` at 0 (10_state.md rule R18). -/
def State.load (s : State) (ws : List CommandWord) : State := { s with cmds := ws, ci := 0 }

/-- A list with `w` at place `n`, zeros before it where the list is too short. -/
def putWord (n : Nat) (w : CommandWord) (ws : List CommandWord) : List CommandWord :=
  ws.take n ++ List.replicate (n - ws.length) 0#40 ++ w :: ws.drop (n + 1)

/-! ### The one fault (60_exceptions.md rules R131, R135): there is no handler, no saved state and no return -/

/-- `raise IllegalCommand(w)`: reported with the word and the index `ci`. -/
def State.raiseIllegal (s : State) (w : CommandWord) : Result := .fault (.illegalCommand w s.ci)

/-- The state the block is in after a fault: exactly the state before it (R135), with the fault recorded until reset
(R150). -/
def State.recordFault (s : State) (f : Fault) : State := { s with fault := some f }

/-- Reset, the host's action (70_reset_and_hazards.md rule R150), from any state. It also drops the words presented
before it: DESIGN CHOICE (log entry 6). -/
def State.hostReset (_ : State) : State := State.reset

end Sys2Proof.Machine
end

