-- ==== Sys2Proof/Machine/Cipher.lean ====
section
/-! DEFINITION. The cipher unit (42_cipher.md): the LFSR keystream engine, the XOR datapath, the two modes' range
functions, and the four commands. -/

namespace Sys2Proof.Machine

/-- LFSR step (rule R100): shift left, XOR the feedback value if bit 15 was set before the shift. -/
def lfsrStep (k : U16) : U16 := (k <<< 1) ^^^ (if k.getLsbD 15 then Config.lfsrPoly else 0#16)

/-- Multi-step (rule R101). -/
def lfsrAdv (k : U16) : Nat → U16
  | 0 => k
  | n + 1 => lfsrStep (lfsrAdv k n)

/-- The inverse of the step (rule R117 (b)). -/
def lfsrUnstep (k : U16) : U16 :=
  ((k ^^^ (if k.getLsbD 0 then Config.lfsrPoly else 0#16)) >>> 1) ||| ((k &&& 1#16) <<< 15)

/-- Keystream byte (rule R102): `k[7:0]`. -/
def ks (k : U16) : U8 := k.extractLsb' 0 8

/-- XOR datapath (rule R103): the output byte and the next LFSR value. -/
def cipherByte (k : U16) (b : U8) : U8 × U16 := (b ^^^ ks k, lfsrStep k)

/-- Linear mode over a range (rule R104). -/
def cryptLin : List U8 → U16 → List U8
  | [], _ => []
  | b :: rest, k => (cipherByte k b).1 :: cryptLin rest (cipherByte k b).2

/-- The position of an address inside its block, `A mod 32` (rules R105, R106). -/
def sfcOffset (a : Addr) : Nat := a.toNat % Config.sfcBlock

/-- The start of the block that holds an address (rule R105): bits 4:0 cleared. -/
def sfcBlockStart (a : Addr) : Addr := a &&& ~~~(BitVec.ofNat 32 (Config.sfcBlock - 1))

/-- SFC block key (rule R105): `trunc_16(key ^ (sfc_blockstart(A) >> 2))`. -/
def sfcBlockKey (key : U16) (a : Addr) : U16 :=
  (key.setWidth 32 ^^^ (sfcBlockStart a >>> Config.sfcShift)).setWidth 16

/-- SFC LFSR value at an address (rule R106). -/
def sfcState (key : U16) (a : Addr) : U16 := lfsrAdv (sfcBlockKey key a) (sfcOffset a)

/-- SFC mode over a range (rule R107), by the address of each byte. -/
def cryptSfc : List U8 → U16 → Addr → List U8
  | [], _, _ => []
  | b :: rest, key, a => (b ^^^ ks (sfcState key a)) :: cryptSfc rest key (a + 1#32)

/-- The LFSR value after the byte before address `a`: the step just made, or the block key if `a` starts a block
(rules R107, R111). -/
def sfcReload (key : U16) (a : Addr) (stepped : U16) : U16 :=
  if sfcOffset a = 0 then sfcBlockKey key a else stepped

/-- SFC mode over a range as the engine does it (rule R107, second form): from LFSR value `k`, the first byte at
address `a`. -/
def sfcEngine : List U8 → U16 → Addr → U16 → List U8
  | [], _, _, _ => []
  | b :: rest, key, a, k =>
    (cipherByte k b).1 :: sfcEngine rest key (a + 1#32) (sfcReload key (a + 1#32) (cipherByte k b).2)

/-- `CI.KEY imm16` (rule R108). -/
def execCiKey (imm16 : U16) (s : State) : Result := .next (s.setKey imm16)

/-- `CI.LIN` (rule R109). -/
def execCiLin (s : State) : Result := .next ((s.setMode .lin).setLfsr s.key)

/-- `CI.SFC imm32` (rule R110). -/
def execCiSfc (imm32 : Addr) (s : State) : Result :=
  .next (((s.setMode .sfc).setAddr imm32).setLfsr (sfcState s.key imm32))

/-- What `CI.B` does to `ADDR` and `LFSR` in SFC mode after the step (rule R111): the increment, modulo 2^32, and the
reload at a block start. -/
def State.sfcAdvance (s : State) : State :=
  (s.setAddr (s.addr + 1#32)).setLfsr (sfcReload s.key (s.addr + 1#32) s.lfsr)

/-- The part of `CI.B` that both modes share (rule R111): emit the output byte, step the LFSR. -/
def State.cipherStep (s : State) (imm8 : U8) : State :=
  (s.emit (.outByte (cipherByte s.lfsr imm8).1)).setLfsr (cipherByte s.lfsr imm8).2

/-- `CI.B imm8` (rule R111), in the rule's order: emit, step, and in SFC mode the address and the reload. -/
def execCiB (imm8 : U8) (s : State) : Result :=
  match s.mode with
  | .lin => .next (s.cipherStep imm8)
  | .sfc => .next (s.cipherStep imm8).sfcAdvance

end Sys2Proof.Machine
end

