-- ==== Sys2Proof/Machine/Crc16.lean ====
section
/-! DEFINITION. The CRC-16 generator (40_crc16.md): its functions and its three commands. -/

namespace Sys2Proof.Machine

/-- Bit step (rule R70): `fb = c[15] ^ d`, shift left, XOR the polynomial if `fb`. -/
def c16Bit (c : U16) (d : Bool) : U16 :=
  (c <<< 1) ^^^ (if xor (c.getLsbD 15) d then Config.crc16Poly else 0#16)

/-- The bits of a byte in the order the CRC-16 unit takes them, bit 7 first (20_memory.md rule R33 (a)). -/
def bitsMsbFirst (b : U8) : List Bool := [7, 6, 5, 4, 3, 2, 1, 0].map b.getLsbD

/-- Byte step (rule R71): the bit step on bits 7 down to 0. -/
def c16Byte (c : U16) (b : U8) : U16 := (bitsMsbFirst b).foldl c16Bit c

/-- Sequence function (rule R72), first byte first. -/
def crc16 (data : List U8) (init : U16 := Config.crc16Init) : U16 := data.foldl c16Byte init

/-- One place of the byte form: shift left, XOR the polynomial if the bit that left was 1 (rule R78). -/
def c16Shift (t : U16) : U16 := (t <<< 1) ^^^ (if t.getLsbD 15 then Config.crc16Poly else 0#16)

/-- The equivalent byte form (rule R78): the byte XORed into bits 15 to 8, then 8 shifts. -/
def c16ByteForm (c : U16) (b : U8) : U16 :=
  (List.range 8).foldl (fun t _ => c16Shift t) (c ^^^ (b.setWidth 16 <<< 8))

/-- `C16.LD imm16` (rule R73). -/
def execC16Ld (imm16 : U16) (s : State) : Result := .next (s.setC16 imm16)

/-- `C16.B imm8` (rule R74). -/
def execC16B (imm8 : U8) (s : State) : Result := .next (s.setC16 (c16Byte s.c16 imm8))

/-- `C16.RD` (rule R75). -/
def execC16Rd (s : State) : Result := .next (s.emit (.outC16 s.c16))

end Sys2Proof.Machine
end

