-- ==== Sys2Proof/Machine/Crc32.lean ====
section
/-! DEFINITION. The CRC-32 generator (41_crc32.md): its functions and its three commands. -/

namespace Sys2Proof.Machine

/-- Bit step (rule R86): `fb = c[0] ^ d`, shift right, XOR the reflected polynomial if `fb`. -/
def c32Bit (c : U32) (d : Bool) : U32 :=
  (c >>> 1) ^^^ (if xor (c.getLsbD 0) d then Config.crc32PolyR else 0#32)

/-- The bits of a byte in the order the CRC-32 unit takes them, bit 0 first (20_memory.md rule R33 (b)). -/
def bitsLsbFirst (b : U8) : List Bool := [0, 1, 2, 3, 4, 5, 6, 7].map b.getLsbD

/-- Byte step (rule R87): the bit step on bits 0 to 7. -/
def c32Byte (c : U32) (b : U8) : U32 := (bitsLsbFirst b).foldl c32Bit c

/-- Sequence function (rule R88), first byte first. -/
def crc32 (data : List U8) (init : U32 := Config.crc32Init) : U32 := data.foldl c32Byte init

/-- One place of the byte form: shift right, XOR the reflected polynomial if the bit that left was 1 (rule R94). -/
def c32Shift (t : U32) : U32 := (t >>> 1) ^^^ (if t.getLsbD 0 then Config.crc32PolyR else 0#32)

/-- The equivalent byte form (rule R94): the byte XORed into bits 7 to 0, then 8 shifts. -/
def c32ByteForm (c : U32) (b : U8) : U32 :=
  (List.range 8).foldl (fun t _ => c32Shift t) (c ^^^ b.setWidth 32)

/-- `C32.LD imm32` (rule R89). -/
def execC32Ld (imm32 : U32) (s : State) : Result := .next (s.setC32 imm32)

/-- `C32.B imm8` (rule R90). -/
def execC32B (imm8 : U8) (s : State) : Result := .next (s.setC32 (c32Byte s.c32 imm8))

/-- `C32.RD` (rule R91). -/
def execC32Rd (s : State) : Result := .next (s.emit (.outC32 s.c32))

end Sys2Proof.Machine
end

