-- ==== Sys2Proof/Machine/Dispatch.lean ====
section
/-! DEFINITION. One arm per command, each one direct call of its meaning. -/

namespace Sys2Proof.Machine

def exec (i : Instr) (s : State) : Host.Outcome State Fault Refusal :=
  match i with
  | .c16Ld imm16 => Sys2Proof.Machine.execC16Ld imm16 s
  | .c16B imm8 => Sys2Proof.Machine.execC16B imm8 s
  | .c16Rd => Sys2Proof.Machine.execC16Rd s
  | .c32Ld imm32 => Sys2Proof.Machine.execC32Ld imm32 s
  | .c32B imm8 => Sys2Proof.Machine.execC32B imm8 s
  | .c32Rd => Sys2Proof.Machine.execC32Rd s
  | .ciKey imm16 => Sys2Proof.Machine.execCiKey imm16 s
  | .ciLin => Sys2Proof.Machine.execCiLin s
  | .ciSfc imm32 => Sys2Proof.Machine.execCiSfc imm32 s
  | .ciB imm8 => Sys2Proof.Machine.execCiB imm8 s

end Sys2Proof.Machine
end

