-- ==== Sys2Proof/Machine/Step.lean ====
section
/-! DEFINITION. One step of the block: the next command of the host's list, decoded and performed
(30_encoding.md rules R59, R60; 60_exceptions.md rules R131, R135). -/

namespace Sys2Proof.Machine

/-- A performed command's outcome with `ci <- ci + 1` (rule R59). -/
def afterCommand : Result → Result
  | .next t => .next t.advanceCi
  | .fault f => .fault f
  | .refused r => .refused r

/-- Perform one word: its command, or the fault of an illegal word, which has no effect (R131). -/
def performWord (w : CommandWord) (s : State) : Result :=
  match decode w with
  | .ok i => afterCommand (exec i s)
  | .error _ => s.raiseIllegal w

/-- One step. With a fault recorded the block performs nothing (R135) and the same fault stands (R131). With no
command left the block holds its state (10_state.md R25, 60_exceptions.md R138; DEDUCED, log entry 2). -/
def step (s : State) : Host.Outcome State Fault Refusal :=
  match s.fault with
  | some f => .fault f
  | none =>
    match s.fetch with
    | none => .next s
    | some w => performWord w s

/-- The state the block is in after one step, whichever way the step ended. -/
def stateAfter (s : State) : State :=
  match step s with
  | .next t => t
  | .fault f => s.recordFault f
  | .refused _ => s

/-- `s` with a word, its bits numbered as spec/opcode_table.json numbers them, as command number `ci`, and no fault
recorded, so that the next step performs it. It stands for the host's presenting a word (log entries 1 and 4). -/
def State.withFetchWord (s : State) (nbits w : Nat) : State :=
  { s with cmds := putWord s.ci (BitVec.ofNat 40 (w % 2 ^ nbits)) s.cmds, fault := none }

end Sys2Proof.Machine
end

