-- ==== Sys2Proof/Machine/Assembler.lean ====
section
/-! DEFINITION. The assembler syntax of 30_encoding.md rules R57 and R58: one command per line, `;` comments, blank
lines ignored, operands as hexadecimal literals with 0x or decimal literals, and the pseudo-commands. Where the rules
are silent (white space, the letter case of hex digits, what a bad line gives) log entry 10 holds: DESIGN CHOICE. -/

namespace Sys2Proof.Machine

/-- Why a line is no command. The names are the model's (log entry 10); each is safe: the line is refused. -/
inductive AsmError where
  /-- the first word of the line is no mnemonic and no pseudo-command -/
  | unknownName
  /-- an operand is no literal of the form asked for -/
  | badLiteral
  /-- the operands do not fit the command: their number, or a value wider than the format's operand -/
  | illFormed
  deriving DecidableEq, Repr

/-- The digits of the two number systems of rule R57 in the order of their values: the first ten are the decimal ones.
Upper case, as the spec writes its hexadecimal literals. -/
def digitAlphabet : List Char := "0123456789ABCDEF".toList

/-- The value of a digit: its place in the alphabet, or in the alphabet in lower case (log entry 10). -/
def digitValue (c : Char) : Option Nat :=
  match digitAlphabet.idxOf? c with
  | some d => some d
  | none => (digitAlphabet.map Char.toLower).idxOf? c

/-- The value of digits in a base, most significant first, after the value of the digits before them. -/
def digitsFrom (base acc : Nat) : List Char → Option Nat
  | [] => some acc
  | c :: rest =>
    match digitValue c with
    | some d => if d < base then digitsFrom base (acc * base + d) rest else none
    | none => none

/-- A number of one digit or more. -/
def digits (base : Nat) (cs : List Char) : Option Nat :=
  if cs.isEmpty then none else digitsFrom base 0 cs

/-- A literal (rule R57): hexadecimal after `0x`, else decimal. -/
def literal : List Char → Option Nat
  | '0' :: 'x' :: hex => digits 16 hex
  | cs => digits 10 cs

/-- A two-digit hex byte without prefix (rule R58). -/
def hexByte (cs : List Char) : Option U8 :=
  if cs.length = 2 then (digits 16 cs).map (BitVec.ofNat 8) else none

/-- The characters that separate the words of a line (log entry 10). -/
def isSeparator (c : Char) : Bool := c == ' ' || c == '\t' || c == '\r'

/-- The words of a line, its comment left out (rule R57: `;` to the end of the line). -/
def lineWords (line : List Char) : List (List Char) :=
  ((line.takeWhile (fun c => c != ';')).splitOnP isSeparator).filter (fun word => !word.isEmpty)

/-- The command of a well-formed written command: its operand is in the low bits of the argument (rule R53). -/
def assembleCommand (c : RawCommand) : Except AsmError (List Instr) :=
  if c.wf then .ok [c.name.build (BitVec.ofNat 32 (c.operands.headD 0))] else .error .illFormed

/-- The expansion of a well-formed pseudo-command (rule R58). -/
def assemblePseudo (p : Pseudo) : Except AsmError (List Instr) :=
  if p.wf then .ok p.expand else .error .illFormed

/-- A pseudo-command with no operand. -/
def bare (p : Pseudo) (args : List (List Char)) : Except AsmError (List Instr) :=
  if args.isEmpty then assemblePseudo p else .error .illFormed

/-- A `DATA` pseudo-command with its bytes. -/
def data (p : List U8 → Pseudo) (args : List (List Char)) : Except AsmError (List Instr) :=
  match args.mapM hexByte with
  | some bytes => assemblePseudo (p bytes)
  | none => .error .badLiteral

/-- The commands of one line's words. -/
def assembleWords : List (List Char) → Except AsmError (List Instr)
  | [] => .ok []
  | name :: args =>
    match Mnemonic.all.find? (fun m => m.text.toList == name) with
    | some m =>
      match args.mapM literal with
      | some ns => assembleCommand ⟨m, ns⟩
      | none => .error .badLiteral
    | none =>
      if name = "C16.CLR".toList then bare .c16Clr args
      else if name = "C32.INIT".toList then bare .c32Init args
      else if name = "CI.HDR".toList then bare .ciHdr args
      else if name = "C16.DATA".toList then data .c16Data args
      else if name = "C32.DATA".toList then data .c32Data args
      else if name = "CI.DATA".toList then data .ciData args
      else .error .unknownName

/-- The commands of one line. -/
def assembleLine (line : List Char) : Except AsmError (List Instr) := assembleWords (lineWords line)

/-- The commands of a list of lines, in order; the first bad line's reason if there is one. -/
def assembleLines : List (List Char) → Except AsmError (List Instr)
  | [] => .ok []
  | line :: rest =>
    match assembleLine line with
    | .error e => .error e
    | .ok is =>
      match assembleLines rest with
      | .error e => .error e
      | .ok js => .ok (is ++ js)

/-- The commands of a text (rule R57). -/
def assemble (text : String) : Except AsmError (List Instr) := assembleLines (text.toList.splitOn '\n')

/-- The digit of a value below 16, upper case. -/
def hexDigit (d : Nat) : Char := digitAlphabet.getD d '0'

/-- The low `n` hex digits of a value, most significant first. -/
def hexDigits : Nat → Nat → List Char
  | 0, _ => []
  | n + 1, v => hexDigits n (v / 16) ++ [hexDigit (v % 16)]

/-- An operand as the spec's examples write it: `0x` and all of its digits. -/
def printOperand {n : Nat} (imm : BitVec n) : List Char := ' ' :: '0' :: 'x' :: hexDigits (n / 4) imm.toNat

/-- A command as rule R57 writes it: its mnemonic, then its operand if it has one. -/
def printInstr (i : Instr) : List Char :=
  i.mnemonic.text.toList ++
    match i with
    | .c16Ld imm => printOperand imm
    | .c16B imm => printOperand imm
    | .c16Rd => []
    | .c32Ld imm => printOperand imm
    | .c32B imm => printOperand imm
    | .c32Rd => []
    | .ciKey imm => printOperand imm
    | .ciLin => []
    | .ciSfc imm => printOperand imm
    | .ciB imm => printOperand imm

/-- A line of a text: a command or none, then a comment or none (rule R57). -/
def printLine (i : Option Instr) (comment : Option (List Char)) : List Char :=
  (i.map printInstr).getD [] ++ (comment.map (fun cs => ';' :: cs)).getD []

end Sys2Proof.Machine
end

