-- ==== Sys2Proof/Machine/CrcReading.lean ====
section
/-! DEFINITION. The CRC parameter lists of 00_scope.md rule R2 as data, and the function such a list names, written
without the registers of Crc16.lean and Crc32.lean: a divider in the normal (left-shifting) form, with "reflected"
taken as bit reversal of every input byte, of the init and of the result (41_crc32.md rules R85 and R86: a reflected
CRC keeps its register bit-reversed). Statements compare it with the two units. No step uses it. -/

namespace Sys2Proof.Machine

/-- A CRC parameter list (rule R2): polynomial in normal form, default init, REFLECT, XOROUT. -/
structure CrcParams (n : Nat) where
  poly : BitVec n
  init : BitVec n
  reflect : Bool
  xorOut : BitVec n
  deriving DecidableEq, Repr

/-- `bitrev_N` where REFLECT is true. -/
def reflectIf {n : Nat} (reflect : Bool) (v : BitVec n) : BitVec n := if reflect then v.reverse else v

/-- The normal-form divider on one data bit: the data bit meets the bit that leaves at the high end. -/
def CrcParams.divide {n : Nat} (p : CrcParams n) (c : BitVec n) (d : Bool) : BitVec n :=
  (c <<< 1) ^^^ (if xor c.msb d then p.poly else 0#n)

/-- The divider on the 8 bits of a byte, the byte bit-reversed first where REFLECT is true. -/
def CrcParams.divideByte {n : Nat} (p : CrcParams n) (c : BitVec n) (b : U8) : BitVec n :=
  (bitsMsbFirst (reflectIf p.reflect b)).foldl p.divide c

/-- The CRC a parameter list names, `init` and result as the caller sees them. -/
def CrcParams.crc {n : Nat} (p : CrcParams n) (data : List U8) (init : BitVec n) : BitVec n :=
  reflectIf p.reflect (data.foldl p.divideByte (reflectIf p.reflect init)) ^^^ p.xorOut

/-- The CRC-16 parameter list of rule R2. -/
def crc16Params : CrcParams 16 := ⟨Config.crc16Poly, Config.crc16Init, Config.crc16Reflect, Config.crc16XorOut⟩

/-- The CRC-32 parameter list of rule R2. -/
def crc32Params : CrcParams 32 := ⟨Config.crc32Poly, Config.crc32Init, Config.crc32Reflect, Config.crc32XorOut⟩

end Sys2Proof.Machine
end

