-- ==== Sys2Proof/Machine/Flags.lean ====
section
/-! DEFINITION. The block has no condition codes, no status flags and no predicates, and no command computes a flag
(10_state.md rule R19), so this file holds no flag computation. What it holds is the one control bit, `MODE`, as the
bit of rule R15, and the registers as the 113 bits of rule R10. -/

namespace Sys2Proof.Machine

/-- `MODE` as a bit: 0 = LIN, 1 = SFC (10_state.md rules R10, R15). -/
def Mode.toBit : Mode → BitVec 1
  | .lin => 0#1
  | .sfc => 1#1

/-- The mode a bit stands for (rule R15). -/
def Mode.ofBit (b : BitVec 1) : Mode := if b = 0#1 then .lin else .sfc

/-- The registers as one word of 113 bits (rule R10), in the order of rule R10's table, `C16` highest. The packing is
the model's; no command sees it. -/
def Registers.pack (r : Registers) : BitVec 113 :=
  r.c16 ++ r.c32 ++ r.key ++ r.lfsr ++ r.mode.toBit ++ r.addr

/-- The registers that 113 bits stand for. -/
def Registers.unpack (v : BitVec 113) : Registers where
  c16 := v.extractLsb' 97 16
  c32 := v.extractLsb' 65 32
  key := v.extractLsb' 49 16
  lfsr := v.extractLsb' 33 16
  mode := Mode.ofBit (v.extractLsb' 32 1)
  addr := v.extractLsb' 0 32

end Sys2Proof.Machine
end

