-- ==== Sys2Proof/Machine/HostInterface.lean ====
section
/-! DEFINITION. What the host can do to one instance (10_state.md rule R25, 30_encoding.md rules R59, R60,
70_reset_and_hazards.md rule R150). Reading the result port and the reported fault changes nothing and needs no act. -/

namespace Sys2Proof.Machine

/-- One act of the host. -/
inductive HostAct where
  /-- present further command words -/
  | present (ws : List CommandWord)
  /-- let the block perform the next command -/
  | perform
  /-- reset the block (R150) -/
  | reset
  deriving DecidableEq, Repr

/-- The state of the block after an act. -/
def State.act (s : State) : HostAct → State
  | .present ws => s.present ws
  | .perform => stateAfter s
  | .reset => s.hostReset

/-- The state of the block after a list of acts, first act first. -/
def State.acts (s : State) (as : List HostAct) : State := as.foldl State.act s

end Sys2Proof.Machine
end

