-- ==== Sys2Proof/Machine/Instances.lean ====
section
/-! DEFINITION. Several instances of the block side by side (20_memory.md rule R45, 60_exceptions.md rule R139). They
share nothing and have no order among them; running at once is an interleaving of host acts, each on one instance
(DESIGN CHOICE, log entry 7). -/

namespace Sys2Proof.Machine

/-- Instances, each with its own registers and result port; they have no identifiers (R139), the place is the host's. -/
abbrev Instances := List State

/-- An act of the host on the instance at place `k`. -/
def actOn (sys : Instances) (k : Nat) (a : HostAct) : Instances := sys.modify k (fun s => s.act a)

/-- An interleaving: acts, each with the place of its instance, first act first. -/
def interleave (sys : Instances) (as : List (Nat × HostAct)) : Instances :=
  as.foldl (fun t p => actOn t p.1 p.2) sys

/-- The acts of an interleaving that are on the instance at place `k`, in their order. -/
def actsFor (k : Nat) (as : List (Nat × HostAct)) : List HostAct :=
  (as.filter (fun p => p.1 == k)).map Prod.snd

end Sys2Proof.Machine
end

