-- ==== Sys2Proof/Safety.lean ====
section
/-! DEFINITION. What a run is and how it ends, in the terms the statements use (30_encoding.md rules R59, R60). -/

namespace Sys2Proof.Machine

/-- The effect of a command list: its commands performed in order, each exactly once (rule R59). -/
def execAll : List Instr → State → Result
  | [], s => .next s
  | i :: rest, s =>
    match exec i s with
    | .next t => execAll rest t
    | .fault f => .fault f
    | .refused r => .refused r

/-- The run of a list of words from the registers of `s` for at most `n` steps. -/
def runWords (n : Nat) (ws : List CommandWord) (s : State) : Result := Host.Core.run Sys2Proof.core n (s.load ws)

/-- The normal end of a run (rule R60): `ci` equals the length of the list, and no fault is recorded. -/
def State.atNormalEnd (s : State) : Bool := s.ci == s.cmds.length && s.fault.isNone

/-- A word that decodes to a command. -/
def decodable (w : CommandWord) : Bool := (decode w).toBool

/-- A safe state: no fault is recorded and every word still to be performed decodes. -/
def State.safe (s : State) : Bool := s.fault.isNone && (s.cmds.drop s.ci).all decodable

/-- `ci` never passes the end of the list (rules R18, R59). -/
def State.IndexInList (s : State) : Prop := s.ci ≤ s.cmds.length

/-- The SFC invariant of 42_cipher.md rule R113: in SFC mode `LFSR = sfc_state(KEY, ADDR)`. -/
def State.SfcSynced (s : State) : Prop := s.mode = .sfc → s.lfsr = sfcState s.key s.addr

end Sys2Proof.Machine
end

