-- ==== Sys2Proof/Certificates/Slice0/Obligations.lean ====
section
/-! DEFINITION. The statements about the model, for the provers. The block has no memory (20_memory.md rule R30), no
general registers and no flags (10_state.md rules R17, R19), so a frame here is the whole state: a command's result is
stated as the exact next state, which says that every other field is unchanged. -/

open Sys2Proof Sys2Proof.Machine

/-! ## Encoding (30_encoding.md) -/

/-- Decoding the word of a command gives the command back, for every command and every operand (95_test_vectors.md
VE-3: "Decode followed by encode is the identity on them; two different legal words never decode to the same command
and operand", read from the command's side). -/
def Obligations.DecodeOfEncodeIsIdentity : Prop :=
  ∀ i : Instr, decode (encode i) = .ok i

/-- The word of what a word decodes to is the word itself: no bit of a legal word is dropped, and two different words
never decode to the same command (95_test_vectors.md VE-3). -/
def Obligations.EncodeOfDecodeIsIdentity : Prop :=
  ∀ (w : CommandWord) (i : Instr), decode w = .ok i → encode i = w

/-- Rule R54: a word is legal if and only if it matches exactly one row of the table; the match sets are disjoint; the
row is the command's own; every other word raises `IllegalCommand(w)` when it is performed. -/
def Obligations.WordLegalIffExactlyOneTableRow : Prop :=
  ∀ w : CommandWord,
    (matchingRows w).length ≤ 1 ∧
    ((∃ i, decode w = .ok i) ↔ legalWord w = true) ∧
    (∀ i, decode w = .ok i →
      ∃ r, matchingRows w = [r] ∧ r.name = i.mnemonic ∧ r.op = opField w ∧ r.format = i.mnemonic.format) ∧
    (legalWord w = false → ∀ s : State, s.fault = none → s.cmds[s.ci]? = some w →
      step s = .fault (.illegalCommand w s.ci))

/-- Rule R55: exactly the listed words are illegal; 246 opcode values are in no row; the all-zero and the all-ones word
are illegal; all illegal words behave alike. -/
def Obligations.IllegalWordsAreTheListedOnes : Prop :=
  (∀ w : CommandWord,
    (∃ e, decode w = .error e) ↔
      ((opField w).toNat ≤ 0x0F ∨ (0x13 ≤ (opField w).toNat ∧ (opField w).toNat ≤ 0x1F) ∨
        (0x23 ≤ (opField w).toNat ∧ (opField w).toNat ≤ 0x2F) ∨ 0x34 ≤ (opField w).toNat) ∨
      ((opField w = 0x12#8 ∨ opField w = 0x22#8 ∨ opField w = 0x31#8) ∧ argField w ≠ 0#32) ∨
      ((opField w = 0x11#8 ∨ opField w = 0x21#8 ∨ opField w = 0x33#8) ∧ (argField w).extractLsb' 8 24 ≠ 0#24) ∨
      ((opField w = 0x10#8 ∨ opField w = 0x30#8) ∧ (argField w).extractLsb' 16 16 ≠ 0#16)) ∧
  ((List.range 256).filter (fun n => (mnemonicOf (BitVec.ofNat 8 n)).isNone)).length = 246 ∧
  (∃ e, decode 0x0000000000#40 = .error e) ∧
  (∃ e, decode 0xFFFFFFFFFF#40 = .error e) ∧
  (∀ (w : CommandWord) (e : DecodeError) (s : State), decode w = .error e → s.fault = none →
    s.cmds[s.ci]? = some w → step s = .fault (.illegalCommand w s.ci))

/-- Rules R50, R51, R53: the opcode is bits 39 to 32, the operand is the low bits of the argument as they stand, and
the argument's other bits are zero; for each command, a word decodes to it exactly then. -/
def Obligations.DecodedOperandsAreArgumentBits : Prop :=
  ∀ w : CommandWord,
    (∀ v, decode w = .ok (.c16Ld v) ↔
      w.extractLsb' 32 8 = 0x10#8 ∧ w.extractLsb' 16 16 = 0#16 ∧ v = w.extractLsb' 0 16) ∧
    (∀ v, decode w = .ok (.c16B v) ↔
      w.extractLsb' 32 8 = 0x11#8 ∧ w.extractLsb' 8 24 = 0#24 ∧ v = w.extractLsb' 0 8) ∧
    (decode w = .ok .c16Rd ↔ w.extractLsb' 32 8 = 0x12#8 ∧ w.extractLsb' 0 32 = 0#32) ∧
    (∀ v, decode w = .ok (.c32Ld v) ↔ w.extractLsb' 32 8 = 0x20#8 ∧ v = w.extractLsb' 0 32) ∧
    (∀ v, decode w = .ok (.c32B v) ↔
      w.extractLsb' 32 8 = 0x21#8 ∧ w.extractLsb' 8 24 = 0#24 ∧ v = w.extractLsb' 0 8) ∧
    (decode w = .ok .c32Rd ↔ w.extractLsb' 32 8 = 0x22#8 ∧ w.extractLsb' 0 32 = 0#32) ∧
    (∀ v, decode w = .ok (.ciKey v) ↔
      w.extractLsb' 32 8 = 0x30#8 ∧ w.extractLsb' 16 16 = 0#16 ∧ v = w.extractLsb' 0 16) ∧
    (decode w = .ok .ciLin ↔ w.extractLsb' 32 8 = 0x31#8 ∧ w.extractLsb' 0 32 = 0#32) ∧
    (∀ v, decode w = .ok (.ciSfc v) ↔ w.extractLsb' 32 8 = 0x32#8 ∧ v = w.extractLsb' 0 32) ∧
    (∀ v, decode w = .ok (.ciB v) ↔
      w.extractLsb' 32 8 = 0x33#8 ∧ w.extractLsb' 8 24 = 0#24 ∧ v = w.extractLsb' 0 8)

/-- Rule R52: a list of `n` words is `5n` bytes, word `k` at byte offset `5k`, its opcode first and its argument
little-endian; reading the bytes back gives the words, and decoding bytes gives the command and the bytes after it. -/
def Obligations.SerialisedListRoundTrip : Prop :=
  (∀ ws : List CommandWord,
    (serialise ws).length = 5 * ws.length ∧ deserialise (serialise ws) = some ws ∧
    ∀ (k : Nat) (w : CommandWord), ws[k]? = some w →
      ((serialise ws).drop (5 * k)).take 5 =
        [w.extractLsb' 32 8, w.extractLsb' 0 8, w.extractLsb' 8 8, w.extractLsb' 16 8, w.extractLsb' 24 8]) ∧
  (∀ (i : Instr) (rest : List U8), decodeBytes (wordBytes (encode i) ++ rest) = .ok (i, rest))

/-- Each of the twelve words of 95_test_vectors.md VE-1 decodes to the command listed there, and each of the fourteen
words of VE-2 is illegal and decodes to none. -/
def Obligations.VectorWordsDecode : Prop :=
  decode 0x1000000000#40 = .ok (.c16Ld 0x0000#16) ∧ decode 0x100000FFFF#40 = .ok (.c16Ld 0xFFFF#16) ∧
  decode 0x1100000031#40 = .ok (.c16B 0x31#8) ∧ decode 0x1200000000#40 = .ok .c16Rd ∧
  decode 0x2026536734#40 = .ok (.c32Ld 0x26536734#32) ∧ decode 0x21000000FF#40 = .ok (.c32B 0xFF#8) ∧
  decode 0x2200000000#40 = .ok .c32Rd ∧ decode 0x3000001234#40 = .ok (.ciKey 0x1234#16) ∧
  decode 0x3100000000#40 = .ok .ciLin ∧ decode 0x3200000021#40 = .ok (.ciSfc 0x00000021#32) ∧
  decode 0x32FFFFFFFE#40 = .ok (.ciSfc 0xFFFFFFFE#32) ∧ decode 0x33000000A5#40 = .ok (.ciB 0xA5#8) ∧
  ∀ w ∈ [0x0000000000#40, 0xFFFFFFFFFF#40, 0x0F00000000#40, 0x1300000000#40, 0x2300000000#40, 0x3400000000#40,
    0x1200000001#40, 0x2200000100#40, 0x3100000001#40, 0x1100000100#40, 0x1100000131#40, 0x3380000000#40,
    0x1000010000#40, 0x3000010000#40], legalWord w = false ∧ ∃ e, decode w = .error e

/-- Rule R58: the exact expansion of each pseudo-command, that the assembler replaces a well-formed one by it, and how
each is written: a `DATA` pseudo-command with its bytes as two hex digits without prefix. -/
def Obligations.PseudoCommandsExpand : Prop :=
  Pseudo.expand .c16Clr = [.c16Ld 0x0000#16] ∧
  Pseudo.expand .c32Init = [.c32Ld 0x26536734#32] ∧
  Pseudo.expand .ciHdr = [.ciKey 0xFFFF#16, .ciLin] ∧
  (∀ bytes, Pseudo.expand (.c16Data bytes) = bytes.map Instr.c16B) ∧
  (∀ bytes, Pseudo.expand (.c32Data bytes) = bytes.map Instr.c32B) ∧
  (∀ bytes, Pseudo.expand (.ciData bytes) = bytes.map Instr.ciB) ∧
  (∀ p : Pseudo, p.wf = true → assemblePseudo p = .ok p.expand) ∧
  assembleWords ["C16.CLR".toList] = .ok [.c16Ld 0x0000#16] ∧
  assembleWords ["C32.INIT".toList] = .ok [.c32Ld 0x26536734#32] ∧
  assembleWords ["CI.HDR".toList] = .ok [.ciKey 0xFFFF#16, .ciLin] ∧
  (∀ bytes : List U8, bytes ≠ [] →
    assembleWords ("C16.DATA".toList :: bytes.map (fun b => hexDigits 2 b.toNat)) = .ok (bytes.map Instr.c16B) ∧
    assembleWords ("C32.DATA".toList :: bytes.map (fun b => hexDigits 2 b.toNat)) = .ok (bytes.map Instr.c32B) ∧
    assembleWords ("CI.DATA".toList :: bytes.map (fun b => hexDigits 2 b.toNat)) = .ok (bytes.map Instr.ciB))

/-- Rule R57 on one line: a command without operand is its mnemonic; a command with one is its mnemonic and any decimal
literal, or any hexadecimal literal with `0x`, whose value fits the operand, and it is read as that command; a value
that does not fit is refused (log entry 10); every command as it is printed is read back, whatever comment follows; blank
lines and comment lines give nothing; one command per line, in order. The separating space is log entry 10. -/
def Obligations.AssemblerReadsPrintedCommands : Prop :=
  (∀ m : Mnemonic, m.format = .N → assembleLine m.text.toList = .ok [m.build 0#32]) ∧
  (∀ (m : Mnemonic) (n : Nat) (ds : List Nat), m.format.operandBits = some n → ds ≠ [] → (∀ d ∈ ds, d < 10) →
    assembleLine (m.text.toList ++ ' ' :: ds.map hexDigit) =
      if ds.foldl (fun v d => 10 * v + d) 0 < 2 ^ n
      then .ok [m.build (BitVec.ofNat 32 (ds.foldl (fun v d => 10 * v + d) 0))] else .error .illFormed) ∧
  (∀ (m : Mnemonic) (n : Nat) (ds : List Nat), m.format.operandBits = some n → ds ≠ [] → (∀ d ∈ ds, d < 16) →
    assembleLine (m.text.toList ++ ' ' :: '0' :: 'x' :: ds.map hexDigit) =
      if ds.foldl (fun v d => 16 * v + d) 0 < 2 ^ n
      then .ok [m.build (BitVec.ofNat 32 (ds.foldl (fun v d => 16 * v + d) 0))] else .error .illFormed) ∧
  (∀ i : Instr, assembleLine (printInstr i) = .ok [i]) ∧
  (∀ (i : Instr) (comment : List Char), assembleLine (printInstr i ++ ';' :: comment) = .ok [i]) ∧
  assembleLine [] = .ok [] ∧
  (∀ comment : List Char, assembleLine (';' :: comment) = .ok []) ∧
  (∀ is : List Instr, assembleLines (is.map printInstr) = .ok is)

/-! ## The machine (10_state.md, 20_memory.md, 30_encoding.md section 7, 60_exceptions.md, 70_reset_and_hazards.md) -/

/-- A step at a legal word is its command's effect and `ci <- ci + 1` (rule R59); the command completes. -/
def Obligations.StepPerformsCommandAtIndex : Prop :=
  ∀ (s : State) (w : CommandWord) (i : Instr), s.fault = none → s.cmds[s.ci]? = some w → decode w = .ok i →
    ∃ t, exec i s = .next t ∧ step s = .next { t with ci := s.ci + 1 }

/-- Every command completes in every state with every operand, and leaves the command list, `ci` and the recorded fault
as they were (rules R3, R18, R130: no data operation raises an exception). -/
def Obligations.EveryCommandCompletes : Prop :=
  ∀ (i : Instr) (s : State), ∃ t, exec i s = .next t ∧ t.cmds = s.cmds ∧ t.ci = s.ci ∧ t.fault = s.fault

/-- Rule R131: an illegal word is not performed; the step reports it with `w` and `ci`; the state is the one before it,
with the fault recorded (no register changes, nothing is emitted, `ci` still names the word); and no later step clears
the fault or performs the next word. That a later step reports the same fault again is the model's reading (log entry 3:
the rules do not say what a further attempt reports), and so is where the fault is recorded. -/
def Obligations.IllegalWordFaultsWithoutEffect : Prop :=
  ∀ (s : State) (w : CommandWord) (e : DecodeError), s.fault = none → s.cmds[s.ci]? = some w →
    decode w = .error e →
    step s = .fault (.illegalCommand w s.ci) ∧
    stateAfter s = { s with fault := some (.illegalCommand w s.ci) } ∧
    ∀ n : Nat, stateAfter^[n + 1] s = { s with fault := some (.illegalCommand w s.ci) } ∧
      step (stateAfter^[n + 1] s) = .fault (.illegalCommand w s.ci)

/-- Rules R150 and R135: reset, from any state, puts every register at its value, empties the event history and clears
a recorded fault; and whatever else the host does, the fault stands and nothing is performed: reset is the only way out.
That a step of a faulted block reports the recorded fault again is the model's reading (log entry 3). -/
def Obligations.ResetIsOnlyWayOutOfFault : Prop :=
  (∀ s : State, s.hostReset.c16 = 0x0000#16 ∧ s.hostReset.c32 = 0x26536734#32 ∧ s.hostReset.key = 0xFFFF#16 ∧
    s.hostReset.lfsr = 0xFFFF#16 ∧ s.hostReset.mode = .lin ∧ s.hostReset.addr = 0x00000000#32 ∧
    s.hostReset.events = [] ∧ s.hostReset.fault = none) ∧
  (∀ (s : State) (f : Fault) (as : List HostAct), s.fault = some f → HostAct.reset ∉ as →
    (s.acts as).registers = s.registers ∧ (s.acts as).events = s.events ∧ (s.acts as).ci = s.ci ∧
    (s.acts as).fault = some f ∧ step (s.acts as) = .fault f)

/-- Rule R60: the run of a list of legal commands ends normally with `ci` at the length of the list and the effect of
all commands; at the first illegal word a run ends in the fault, with the effect of the commands before it only and
`ci` at that word, which is no normal end; the empty list ends at once with the registers and events unchanged. -/
def Obligations.RunEndsNormallyOrAtIllegalWord : Prop :=
  ∀ (s : State) (is : List Instr), s.fault = none →
    ∃ t, execAll is s = .next t ∧
      runWords is.length (encodeAll is) s = .next { t with cmds := encodeAll is, ci := is.length } ∧
      State.atNormalEnd { t with cmds := encodeAll is, ci := is.length } = true ∧
      (is = [] → t = s) ∧
      ∀ (w : CommandWord) (e : DecodeError) (rest : List CommandWord), decode w = .error e →
        runWords is.length (encodeAll is ++ w :: rest) s =
          .next { t with cmds := encodeAll is ++ w :: rest, ci := is.length } ∧
        State.atNormalEnd { t with cmds := encodeAll is ++ w :: rest, ci := is.length } = false ∧
        ∀ n : Nat, runWords (is.length + 1 + n) (encodeAll is ++ w :: rest) s =
          .fault (.illegalCommand w is.length)

/-- Rule R59: a command list is performed from its first command to its last, each exactly once; the effect of a
command never depends on `ci` (nor on the list); so a list has the same effect wherever it stands in a longer list,
given the same register values before it. -/
def Obligations.ListHasSameEffectWhereverItStands : Prop :=
  (∀ (i : Instr) (s : State) (n : Nat) (ws : List CommandWord), ∃ t, exec i s = .next t ∧
    exec i { s with ci := n, cmds := ws } = .next { t with ci := n, cmds := ws }) ∧
  (∀ (s : State) (before after : List CommandWord) (is : List Instr), s.fault = none →
    s.cmds = before ++ (encodeAll is ++ after) → s.ci = before.length →
    ∃ t, execAll is s = .next t ∧
      Host.Core.run Sys2Proof.core is.length s = .next { t with ci := before.length + is.length })

/-- With no command left the block holds its state. This is the model's reading of rules R25, R60 and R138 (log
entry 2): the spec gives no step there. -/
def Obligations.IdleBlockHoldsState : Prop :=
  ∀ (s : State), s.fault = none → s.cmds.length ≤ s.ci → step s = .next s

/-- The state after reset (the table of rule R24), and that it meets the two invariants stated below. -/
def Obligations.ResetStateMeetsInvariants : Prop :=
  State.reset.c16 = 0x0000#16 ∧ State.reset.c32 = 0x26536734#32 ∧ State.reset.key = 0xFFFF#16 ∧
  State.reset.lfsr = 0xFFFF#16 ∧ State.reset.mode.toBit = 0#1 ∧ State.reset.addr = 0x00000000#32 ∧
  State.reset.events = [] ∧ State.reset.ci = 0 ∧ State.reset.IndexInList ∧ State.reset.SfcSynced

/-- Rule R10: the registers are 113 bits, no more and no fewer; nothing else persists from one command to the next (the
registers after a command and the events it emits depend on the registers before it alone); two instances share
nothing. -/
def Obligations.RegistersAreTheWholeState : Prop :=
  (∀ r : Registers, Registers.unpack r.pack = r) ∧
  (∀ v : BitVec 113, (Registers.unpack v).pack = v) ∧
  (∀ (i : Instr) (s t : State), s.registers = t.registers →
    ∃ s' t' evs, exec i s = .next s' ∧ exec i t = .next t' ∧ s'.registers = t'.registers ∧
      s'.events = s.events ++ evs ∧ t'.events = t.events ++ evs) ∧
  (∀ (sys : Instances) (j k : Nat) (a : HostAct), j ≠ k → (actOn sys k a)[j]? = sys[j]?)

/-- Rule R4: a command of one unit leaves the registers of the others unchanged, and what it does to its own unit and to
the result port does not depend on them. -/
def Obligations.UnitsShareNoState : Prop :=
  ∀ (i : Instr) (s t : State), ∃ s' t', exec i s = .next s' ∧ exec i t = .next t' ∧
    match i.unit with
    | .crc16 =>
      (s'.c32 = s.c32 ∧ s'.key = s.key ∧ s'.lfsr = s.lfsr ∧ s'.mode = s.mode ∧ s'.addr = s.addr) ∧
      (s.c16 = t.c16 → s'.c16 = t'.c16 ∧ ∃ evs, s'.events = s.events ++ evs ∧ t'.events = t.events ++ evs)
    | .crc32 =>
      (s'.c16 = s.c16 ∧ s'.key = s.key ∧ s'.lfsr = s.lfsr ∧ s'.mode = s.mode ∧ s'.addr = s.addr) ∧
      (s.c32 = t.c32 → s'.c32 = t'.c32 ∧ ∃ evs, s'.events = s.events ++ evs ∧ t'.events = t.events ++ evs)
    | .cipher =>
      (s'.c16 = s.c16 ∧ s'.c32 = s.c32) ∧
      (s.key = t.key → s.lfsr = t.lfsr → s.mode = t.mode → s.addr = t.addr →
        s'.key = t'.key ∧ s'.lfsr = t'.lfsr ∧ s'.mode = t'.mode ∧ s'.addr = t'.addr ∧
        ∃ evs, s'.events = s.events ++ evs ∧ t'.events = t.events ++ evs)

/-- Rule R21 and rule R43: which event each command appends to the result port, that no command reads the event
history, and that no command and no step changes a word the host has presented. -/
def Obligations.ResultPortAndPresentedWords : Prop :=
  (∀ (i : Instr) (s : State), ∃ t, exec i s = .next t ∧ t.cmds = s.cmds ∧ t.events = s.events ++
    match i with
    | .c16Ld _ => []
    | .c16B _ => []
    | .c16Rd => [.outC16 s.c16]
    | .c32Ld _ => []
    | .c32B _ => []
    | .c32Rd => [.outC32 s.c32]
    | .ciKey _ => []
    | .ciLin => []
    | .ciSfc _ => []
    | .ciB imm8 => [.outByte (imm8 ^^^ s.lfsr.extractLsb' 0 8)]) ∧
  (∀ (i : Instr) (s : State) (history : List Event), ∃ t u, exec i s = .next t ∧
    exec i { s with events := history } = .next u ∧ u.registers = t.registers) ∧
  (∀ s : State, (stateAfter s).cmds = s.cmds)

/-- `ci` never passes the end of the list (rules R18, R59): every step keeps it so from every state where it is so, and
so does every act of the host. -/
def Obligations.IndexStaysInList : Prop :=
  ∀ s : State, s.IndexInList →
    (∀ t, step s = .next t → t.IndexInList) ∧ ∀ as : List HostAct, (s.acts as).IndexInList

/-- The invariant of rule R113 as every step keeps it: in SFC mode `LFSR = sfc_state(KEY, ADDR)`, from every state that
meets it, unless the step performs a `CI.KEY` (70_reset_and_hazards.md rule R155). -/
def Obligations.SfcInvariantKeptByEveryStep : Prop :=
  ∀ s t : State, s.SfcSynced → step s = .next t →
    (∀ (w : CommandWord) (k : U16), s.cmds[s.ci]? = some w → decode w ≠ .ok (.ciKey k)) → t.SfcSynced

/-- Rule R155, what a `CI.KEY` in mid-range does: none to a linear range; in SFC mode the current block finishes under
the old key, the next block starts under the new one, and with that the invariant holds again. -/
def Obligations.KeyRewrittenInMidRange : Prop :=
  ∀ (s : State) (k : U16) (b : U8),
    (s.mode = .lin ∨ (s.mode = .sfc ∧ (s.addr + 1#32).toNat % 32 ≠ 0) →
      ∃ t, exec (.ciB b) s = .next t ∧ execAll [.ciKey k, .ciB b] s = .next { t with key := k }) ∧
    (s.mode = .sfc → (s.addr + 1#32).toNat % 32 = 0 →
      ∃ t, execAll [.ciKey k, .ciB b] s = .next t ∧ t.events = s.events ++ [.outByte (b ^^^ ks s.lfsr)] ∧
        t.addr = s.addr + 1#32 ∧ t.lfsr = sfcBlockKey k (s.addr + 1#32) ∧ t.SfcSynced)

/-- Rule R153, how interrupted work is resumed: a CRC by reloading the value it emitted, an SFC range by `CI.SFC` at
the address of its next byte, a linear range by `lfsr_adv(key, bytes_done)` loaded as a key, which overwrites `KEY`. -/
def Obligations.InterruptedWorkIsResumed : Prop :=
  (∀ s u : State, ∃ t v, exec .c16Rd s = .next t ∧ t.events = s.events ++ [.outC16 s.c16] ∧
    exec (.c16Ld s.c16) u = .next v ∧ v.c16 = s.c16) ∧
  (∀ s u : State, ∃ t v, exec .c32Rd s = .next t ∧ t.events = s.events ++ [.outC32 s.c32] ∧
    exec (.c32Ld s.c32) u = .next v ∧ v.c32 = s.c32) ∧
  (∀ s u : State, s.mode = .sfc → s.SfcSynced → u.key = s.key →
    ∃ v, exec (.ciSfc s.addr) u = .next v ∧ v.mode = s.mode ∧ v.addr = s.addr ∧ v.lfsr = s.lfsr ∧ v.key = s.key) ∧
  (∀ (s u : State) (key : U16) (done : List U8),
    ∃ t v, execAll (.ciKey key :: .ciLin :: done.map Instr.ciB) s = .next t ∧
      execAll [.ciKey (lfsrAdv key done.length), .ciLin] u = .next v ∧ v.mode = t.mode ∧ v.lfsr = t.lfsr ∧
      v.key = lfsrAdv key done.length)

/-- Several instances (rules R45, R139): after any interleaving of the host's acts, each instance is in the state its
own acts alone lead to. That instances run at once as an interleaving is the model's choice (log entry 7). -/
def Obligations.InstancesShareNothing : Prop :=
  ∀ (sys : Instances) (as : List (Nat × HostAct)) (k : Nat),
    (interleave sys as)[k]? = sys[k]?.map (fun s => s.acts (actsFor k as))

/-- A safe state, with no fault recorded and every word still to be performed legal, never stops: each step answers a
next state, which is safe again (rules R60, R130; at the end of the list by the model's reading, log entry 2). -/
def Obligations.SafeStatesStaySafe : Prop :=
  ∀ s : State, s.safe = true → ∃ t, step s = .next t ∧ t.safe = true ∧
    ∀ n : Nat, ∃ u, Host.Core.run Sys2Proof.core n s = .next u ∧ u.safe = true

/-! ## CRC-16 (40_crc16.md) -/

/-- Rules R73 and R75: `C16.LD` writes `C16` and nothing else; `C16.RD` emits the accumulator as it is and writes no
register, twice in a row twice the same value; with their encodings. -/
def Obligations.C16LoadAndRead : Prop :=
  ∀ (s : State) (v : U16),
    encode (.c16Ld v) = 0x10#8 ++ 0#16 ++ v ∧ decode (0x10#8 ++ 0#16 ++ v) = .ok (.c16Ld v) ∧
    exec (.c16Ld v) s = .next { s with c16 := v } ∧
    exec (.c16Ld s.c16) s = .next s ∧
    encode .c16Rd = 0x1200000000#40 ∧ exec .c16Rd s = .next { s with events := s.events ++ [.outC16 s.c16] } ∧
    execAll [.c16Rd, .c16Rd] s = .next { s with events := s.events ++ [.outC16 s.c16, .outC16 s.c16] }

/-- Rules R70 and R71, as `C16.B` performs them: the bit step is the serial divider with the data bit entering at the
high end; a byte is its eight bits, bit 7 first; `C16.B` writes `C16` and nothing else. -/
def Obligations.C16ByteFeedsBitSevenFirst : Prop :=
  (∀ (c : U16) (d : Bool), c16Bit c d = if c.getLsbD 15 != d then (c <<< 1) ^^^ 0x1021#16 else c <<< 1) ∧
  (∀ (c : U16) (b : U8), c16Byte c b =
    c16Bit (c16Bit (c16Bit (c16Bit (c16Bit (c16Bit (c16Bit (c16Bit c (b.getLsbD 7)) (b.getLsbD 6)) (b.getLsbD 5))
      (b.getLsbD 4)) (b.getLsbD 3)) (b.getLsbD 2)) (b.getLsbD 1)) (b.getLsbD 0)) ∧
  (∀ (s : State) (b : U8), encode (.c16B b) = 0x11#8 ++ 0#24 ++ b ∧
    exec (.c16B b) s = .next { s with c16 := c16Byte s.c16 b })

/-- Rule R76: continuation, for the function and for the commands, with or without a read-out and a load of the same
value in between. -/
def Obligations.Crc16Continuation : Prop :=
  ∀ (a b : List U8),
    (∀ i : U16, crc16 (a ++ b) i = crc16 b (crc16 a i)) ∧
    (∀ s : State, ∃ t u, execAll (a.map Instr.c16B ++ b.map Instr.c16B) s = .next t ∧
      execAll (a.map Instr.c16B ++ (.c16Rd :: .c16Ld (crc16 a s.c16) :: b.map Instr.c16B)) s = .next u ∧
      t.c16 = crc16 (a ++ b) s.c16 ∧ u.c16 = t.c16)

/-- Rule R77, with its last clause made exact: a leading zero byte is invisible for the init 0x0000 and for the init
0xF01F, the other fixed point of the divider (42_cipher.md rule R117 (c), (d)), and visible for every other. The spec's
"visible for any other init", and R74's "still changes a nonzero `C16`", leave 0xF01F out of account (log entry 11). -/
def Obligations.Crc16ElementaryValues : Prop :=
  (∀ i : U16, crc16 [] i = i) ∧ crc16 [] = 0x0000#16 ∧
  c16Byte 0x0000#16 0x00#8 = 0x0000#16 ∧ (∀ n : Nat, crc16 (List.replicate n 0x00#8) 0x0000#16 = 0x0000#16) ∧
  c16Byte 0x0000#16 0x01#8 = 0x1021#16 ∧ c16Byte 0x0000#16 0x80#8 = 0x9188#16 ∧
  c16Byte 0x0000#16 0xFF#8 = 0x1EF0#16 ∧
  (∀ c : U16, c16Byte c 0x00#8 = c ↔ c = 0x0000#16 ∨ c = 0xF01F#16) ∧
  (∀ (m : List U8) (i : U16), crc16 (0x00#8 :: m) i = crc16 m i ↔ i = 0x0000#16 ∨ i = 0xF01F#16)

/-- Rule R78: the byte form. -/
def Obligations.Crc16ByteFormAgrees : Prop :=
  ∀ (c : U16) (b : U8), c16Byte c b =
    (fun t : U16 => if t.getLsbD 15 then (t <<< 1) ^^^ 0x1021#16 else t <<< 1)^[8] (c ^^^ (b.setWidth 16 <<< 8))

/-- Rule R79: linearity of the byte step and of the sequence function; the init's contribution is separable. -/
def Obligations.Crc16Linear : Prop :=
  (∀ (c1 c2 : U16) (b1 b2 : U8), c16Byte (c1 ^^^ c2) (b1 ^^^ b2) = c16Byte c1 b1 ^^^ c16Byte c2 b2) ∧
  (∀ (x y : List U8) (i j : U16), x.length = y.length →
    crc16 (List.zipWith (· ^^^ ·) x y) (i ^^^ j) = crc16 x i ^^^ crc16 y j) ∧
  (∀ (m : List U8) (i : U16), crc16 m i = crc16 m 0x0000#16 ^^^ crc16 (List.replicate m.length 0x00#8) i)

/-- Rule R80: the command list computes the function, from any state, emits exactly one event, and changes no other
register. -/
def Obligations.Crc16CommandListComputesFunction : Prop :=
  ∀ (s : State) (i : U16) (data : List U8), s.fault = none →
    runWords (data.length + 2) (encodeAll (.c16Ld i :: (data.map Instr.c16B ++ [.c16Rd]))) s =
      .next { s with
        c16 := crc16 data i
        events := s.events ++ [.outC16 (crc16 data i)]
        cmds := encodeAll (.c16Ld i :: (data.map Instr.c16B ++ [.c16Rd]))
        ci := data.length + 2 }

/-- Rule R81: the self-check property. -/
def Obligations.Crc16SelfCheck : Prop :=
  ∀ (m : List U8) (i : U16),
    crc16 (m ++ [(crc16 m i).extractLsb' 8 8, (crc16 m i).extractLsb' 0 8]) i = 0x0000#16

/-- The parameter lists of 00_scope.md rule R2 name the two units' functions: polynomial, reflection, init and final
XOR, with "reflected" as bit reversal of the register, the init and the result (92_eei_decisions.md D9). -/
def Obligations.UnitsComputeTheParameterLists : Prop :=
  (∀ (data : List U8) (i : U16), crc16Params.crc data i = crc16 data i) ∧
  (∀ (data : List U8) (i : U32), crc32Params.crc data i = crc32 data i) ∧
  crc16 [] = crc16Params.init ∧ crc32 [] = crc32Params.init

/-! ## CRC-32 (41_crc32.md) -/

/-- Rules R89 and R91: `C32.LD` writes `C32` and nothing else; `C32.RD` emits the accumulator as it stands and writes
no register, twice in a row twice the same value; with their encodings. -/
def Obligations.C32LoadAndRead : Prop :=
  ∀ (s : State) (v : U32),
    encode (.c32Ld v) = 0x20#8 ++ v ∧ exec (.c32Ld v) s = .next { s with c32 := v } ∧
    decode (0x20#8 ++ v) = .ok (.c32Ld v) ∧
    encode .c32Rd = 0x2200000000#40 ∧ exec .c32Rd s = .next { s with events := s.events ++ [.outC32 s.c32] } ∧
    execAll [.c32Rd, .c32Rd] s = .next { s with events := s.events ++ [.outC32 s.c32, .outC32 s.c32] }

/-- Rules R85, R86, R87 and R90: the reflected constant and its coefficients; the bit step; a byte is its eight bits,
bit 0 first; `C32.B` writes `C32` and nothing else, with the rule's corner values. -/
def Obligations.C32ByteFeedsBitZeroFirst : Prop :=
  Config.crc32PolyR = Config.crc32Poly.reverse ∧ Config.crc32PolyR = 0xEDB88320#32 ∧
  (∀ k : Nat, k < 32 →
    Config.crc32Poly.getLsbD k = decide (k ∈ [26, 23, 22, 16, 12, 11, 10, 8, 7, 5, 4, 2, 1, 0]) ∧
    Config.crc32PolyR.getLsbD (31 - k) = Config.crc32Poly.getLsbD k) ∧
  (∀ (c : U32) (d : Bool), c32Bit c d = if c.getLsbD 0 != d then (c >>> 1) ^^^ 0xEDB88320#32 else c >>> 1) ∧
  (∀ (c : U32) (b : U8), c32Byte c b =
    c32Bit (c32Bit (c32Bit (c32Bit (c32Bit (c32Bit (c32Bit (c32Bit c (b.getLsbD 0)) (b.getLsbD 1)) (b.getLsbD 2))
      (b.getLsbD 3)) (b.getLsbD 4)) (b.getLsbD 5)) (b.getLsbD 6)) (b.getLsbD 7)) ∧
  (∀ (s : State) (b : U8), encode (.c32B b) = 0x21#8 ++ 0#24 ++ b ∧
    exec (.c32B b) s = .next { s with c32 := c32Byte s.c32 b }) ∧
  c32Byte 0x00000000#32 0x00#8 = 0x00000000#32 ∧ c32Byte 0x26536734#32 0x00#8 = 0x2192A7D2#32 ∧
  (List.range 8).map (fun n => ((bitsLsbFirst 0x31#8).take (n + 1)).foldl c32Bit 0x26536734#32) =
    [0xFE9130BA#32, 0x7F48985D#32, 0xD21CCF0E#32, 0x690E6787#32, 0x348733C3#32, 0x1A4399E1#32, 0xE0994FD0#32,
      0x704CA7E8#32] ∧
  c32Byte 0x26536734#32 0x31#8 = 0x704CA7E8#32

/-- Rule R92: continuation. -/
def Obligations.Crc32Continuation : Prop :=
  ∀ (a b : List U8),
    (∀ i : U32, crc32 (a ++ b) i = crc32 b (crc32 a i)) ∧
    (∀ s : State, ∃ t u, execAll (a.map Instr.c32B ++ b.map Instr.c32B) s = .next t ∧
      execAll (a.map Instr.c32B ++ (.c32Rd :: .c32Ld (crc32 a s.c32) :: b.map Instr.c32B)) s = .next u ∧
      t.c32 = crc32 (a ++ b) s.c32 ∧ u.c32 = t.c32)

/-- Rule R93: elementary values; with the default init a leading zero byte is visible before every message. -/
def Obligations.Crc32ElementaryValues : Prop :=
  (∀ i : U32, crc32 [] i = i) ∧ crc32 [] = 0x26536734#32 ∧
  c32Byte 0x00000000#32 0x00#8 = 0x00000000#32 ∧ c32Byte 0x00000000#32 0x01#8 = 0x77073096#32 ∧
  c32Byte 0x00000000#32 0x80#8 = 0xEDB88320#32 ∧ c32Byte 0x00000000#32 0xFF#8 = 0x2D02EF8D#32 ∧
  c32Byte 0x26536734#32 0x00#8 = 0x2192A7D2#32 ∧ (∀ m : List U8, crc32 (0x00#8 :: m) ≠ crc32 m)

/-- Rule R94: the byte form. -/
def Obligations.Crc32ByteFormAgrees : Prop :=
  ∀ (c : U32) (b : U8), c32Byte c b =
    (fun t : U32 => if t.getLsbD 0 then (t >>> 1) ^^^ 0xEDB88320#32 else t >>> 1)^[8] (c ^^^ b.setWidth 32)

/-- Rule R95: linearity of the byte step and of the sequence function; the init's contribution is separable. -/
def Obligations.Crc32Linear : Prop :=
  (∀ (c1 c2 : U32) (b1 b2 : U8), c32Byte (c1 ^^^ c2) (b1 ^^^ b2) = c32Byte c1 b1 ^^^ c32Byte c2 b2) ∧
  (∀ (x y : List U8) (i j : U32), x.length = y.length →
    crc32 (List.zipWith (· ^^^ ·) x y) (i ^^^ j) = crc32 x i ^^^ crc32 y j) ∧
  (∀ (m : List U8) (i : U32), crc32 m i = crc32 m 0x00000000#32 ^^^ crc32 (List.replicate m.length 0x00#8) i)

/-- Rule R96: the command list computes the function, from any state, emits exactly one event, and changes no other
register. -/
def Obligations.Crc32CommandListComputesFunction : Prop :=
  ∀ (s : State) (i : U32) (data : List U8), s.fault = none →
    runWords (data.length + 2) (encodeAll (.c32Ld i :: (data.map Instr.c32B ++ [.c32Rd]))) s =
      .next { s with
        c32 := crc32 data i
        events := s.events ++ [.outC32 (crc32 data i)]
        cmds := encodeAll (.c32Ld i :: (data.map Instr.c32B ++ [.c32Rd]))
        ci := data.length + 2 }

/-- Rule R97: the self-check property. -/
def Obligations.Crc32SelfCheck : Prop :=
  ∀ (m : List U8) (i : U32),
    crc32 (m ++ [(crc32 m i).extractLsb' 0 8, (crc32 m i).extractLsb' 8 8, (crc32 m i).extractLsb' 16 8,
      (crc32 m i).extractLsb' 24 8]) i = 0x00000000#32

/-! ## Cipher (42_cipher.md) -/

/-- Rules R108 and R109: `CI.KEY` writes `KEY` only, and takes effect at the next start command; `CI.LIN` writes `MODE` and `LFSR` only, and twice in a row is the
same as once; with their encodings. -/
def Obligations.CipherKeyAndLinearStart : Prop :=
  ∀ (s : State) (v : U16),
    encode (.ciKey v) = 0x30#8 ++ 0#16 ++ v ∧ decode (0x30#8 ++ 0#16 ++ v) = .ok (.ciKey v) ∧
    exec (.ciKey v) s = .next { s with key := v } ∧
    execAll [.ciKey v, .ciLin] s = .next { s with key := v, mode := .lin, lfsr := v } ∧
    (∀ a : Addr, execAll [.ciKey v, .ciSfc a] s =
      .next { s with key := v, mode := .sfc, addr := a, lfsr := sfcState v a }) ∧
    encode .ciLin = 0x3100000000#40 ∧ exec .ciLin s = .next { s with mode := .lin, lfsr := s.key } ∧
    execAll [.ciLin, .ciLin] s = exec .ciLin s

/-- Rule R110: `CI.SFC` writes `MODE`, `ADDR` and `LFSR` only, at any address; the LFSR is the block key advanced by the
position inside the block, the block key itself at a block start. -/
def Obligations.CipherSfcStart : Prop :=
  ∀ (s : State) (a : Addr),
    encode (.ciSfc a) = 0x32#8 ++ a ∧ decode (0x32#8 ++ a) = .ok (.ciSfc a) ∧
    exec (.ciSfc a) s =
      .next { s with mode := .sfc, addr := a, lfsr := lfsrAdv (sfcBlockKey s.key a) (a.toNat % 32) } ∧
    (a.toNat % 32 = 0 → exec (.ciSfc a) s = .next { s with mode := .sfc, addr := a, lfsr := sfcBlockKey s.key a })

/-- Rule R111: `CI.B` emits the byte XOR `LFSR[7:0]` and steps the LFSR; in linear mode nothing else; in SFC mode it
increments `ADDR` modulo 2^32 and at a block start loads the block key instead. -/
def Obligations.CipherByteInBothModes : Prop :=
  ∀ (s : State) (b : U8),
    encode (.ciB b) = 0x33#8 ++ 0#24 ++ b ∧
    (s.mode = .lin → exec (.ciB b) s = .next { s with
      events := s.events ++ [.outByte (b ^^^ s.lfsr.extractLsb' 0 8)]
      lfsr := lfsrStep s.lfsr }) ∧
    (s.mode = .sfc → exec (.ciB b) s = .next { s with
      events := s.events ++ [.outByte (b ^^^ s.lfsr.extractLsb' 0 8)]
      addr := BitVec.ofNat 32 ((s.addr.toNat + 1) % 2 ^ 32)
      lfsr := if (s.addr.toNat + 1) % 32 = 0 then sfcBlockKey s.key (s.addr + 1#32) else lfsrStep s.lfsr })

/-- Rule R100: the LFSR step, as a word and bit by bit. -/
def Obligations.LfsrStepBitByBit : Prop :=
  ∀ k : U16, lfsrStep k = (if k.getLsbD 15 then (k <<< 1) ^^^ 0x1021#16 else k <<< 1) ∧
    ∀ i : Nat, i < 16 → (lfsrStep k).getLsbD i =
      if i = 0 then k.getLsbD 15
      else if i = 5 ∨ i = 12 then xor (k.getLsbD (i - 1)) (k.getLsbD 15) else k.getLsbD (i - 1)

/-- Rules R102, R103 and R104: the keystream byte is the low byte before the step, the output bit `i` is data bit `i`
XOR `k[i]`, the next LFSR value does not depend on the data; and the closed form of a linear range. -/
def Obligations.LinearRangeClosedForm : Prop :=
  (∀ (k : U16) (b : U8), cipherByte k b = (b ^^^ ks k, lfsrStep k) ∧
    ∀ i : Nat, i < 8 → (ks k).getLsbD i = k.getLsbD i ∧
      (cipherByte k b).1.getLsbD i = xor (b.getLsbD i) (k.getLsbD i)) ∧
  (∀ (data : List U8) (key : U16), (cryptLin data key).length = data.length ∧
    ∀ (j : Nat) (b : U8), data[j]? = some b → (cryptLin data key)[j]? = some (b ^^^ ks (lfsrAdv key j)))

/-- Rule R105: the block start, and the block key bit by bit; address bits 31:18 and 4:0 do not enter. -/
def Obligations.SfcBlockKeyBitByBit : Prop :=
  ∀ (key : U16) (a : Addr), sfcBlockStart a = a &&& 0xFFFFFFE0#32 ∧
    sfcBlockKey key a = (key.setWidth 32 ^^^ (sfcBlockStart a >>> 2)).setWidth 16 ∧
    (∀ i : Nat, i < 16 → (sfcBlockKey key a).getLsbD i =
      if i < 3 then key.getLsbD i else xor (key.getLsbD i) (a.getLsbD (i + 2))) ∧
    ∀ a' : Addr, a'.extractLsb' 5 13 = a.extractLsb' 5 13 → sfcBlockKey key a' = sfcBlockKey key a

/-- Rule R107: the range function by the address of each byte equals the engine's form, which steps and reloads; with
the two facts the rule gives for it. -/
def Obligations.SfcRangeFormsAgree : Prop :=
  (∀ (data : List U8) (key : U16) (a : Addr), sfcEngine data key a (sfcState key a) = cryptSfc data key a) ∧
  (∀ (data : List U8) (key : U16) (a : Addr), (cryptSfc data key a).length = data.length ∧
    ∀ (j : Nat) (b : U8), data[j]? = some b →
      (cryptSfc data key a)[j]? = some (b ^^^ ks (sfcState key (a + BitVec.ofNat 32 j)))) ∧
  (∀ (key : U16) (a : Addr), (a + 1#32).toNat % 32 ≠ 0 → sfcState key (a + 1#32) = lfsrStep (sfcState key a)) ∧
  (∀ (key : U16) (a : Addr), a.toNat % 32 = 0 → sfcState key a = sfcBlockKey key a)

/-- Rule R112: the command list of a linear range computes `crypt_lin`, from any state, and what it leaves. -/
def Obligations.LinearCommandListComputesFunction : Prop :=
  ∀ (s : State) (k : U16) (data : List U8), s.fault = none →
    runWords (data.length + 2) (encodeAll (.ciKey k :: .ciLin :: data.map Instr.ciB)) s =
      .next { s with
        key := k
        mode := .lin
        lfsr := lfsrAdv k data.length
        events := s.events ++ (cryptLin data k).map Event.outByte
        cmds := encodeAll (.ciKey k :: .ciLin :: data.map Instr.ciB)
        ci := data.length + 2 }

/-- Rule R113: the command list of an SFC range computes `crypt_sfc`, from any state, and what it leaves; and the
invariant `LFSR = sfc_state(KEY, ADDR)` after `CI.SFC` and after every `CI.B` in SFC mode. -/
def Obligations.SfcCommandListComputesFunction : Prop :=
  (∀ (s : State) (k : U16) (a : Addr) (data : List U8), s.fault = none →
    runWords (data.length + 2) (encodeAll (.ciKey k :: .ciSfc a :: data.map Instr.ciB)) s =
      .next { s with
        key := k
        mode := .sfc
        addr := a + BitVec.ofNat 32 data.length
        lfsr := sfcState k (a + BitVec.ofNat 32 data.length)
        events := s.events ++ (cryptSfc data k a).map Event.outByte
        cmds := encodeAll (.ciKey k :: .ciSfc a :: data.map Instr.ciB)
        ci := data.length + 2 }) ∧
  (∀ (s : State) (a : Addr), ∃ t, exec (.ciSfc a) s = .next t ∧ t.lfsr = sfcState t.key t.addr) ∧
  (∀ (s : State) (b : U8), s.mode = .sfc → s.lfsr = sfcState s.key s.addr →
    ∃ t, exec (.ciB b) s = .next t ∧ t.lfsr = sfcState t.key t.addr)

/-- Rule R114: the cipher applied twice under the same conditions gives the original bytes, in both modes. -/
def Obligations.CipherIsInvolution : Prop :=
  (∀ (r : List U8) (k : U16), cryptLin (cryptLin r k) k = r) ∧
  (∀ (r : List U8) (k : U16) (a : Addr), cryptSfc (cryptSfc r k a) k a = r)

/-- Rule R115: SFC position independence, for a sequence standing at `A0` and any sub-range `[A1, A2)` of it. -/
def Obligations.SfcPositionIndependence : Prop :=
  ∀ (r : List U8) (k : U16) (A0 A1 A2 A3 : Addr), A0 ≤ A1 → A1 ≤ A2 → A2 ≤ A3 → r.length = (A3 - A0).toNat →
    cryptSfc ((r.drop (A1 - A0).toNat).take (A2 - A1).toNat) k A1 =
      ((cryptSfc r k A0).drop (A1 - A0).toNat).take (A2 - A1).toNat

/-- Rule R116: a linear range in two pieces, continued and restarted; the restart is a different function whenever the
length of the first piece is not a multiple of the key's period. -/
def Obligations.LinearChunking : Prop :=
  (∀ (a b : List U8) (k : U16), cryptLin (a ++ b) k = cryptLin a k ++ cryptLin b (lfsrAdv k a.length)) ∧
  (∀ (s : State) (a b : List U8), s.mode = .lin → ∃ t u,
    execAll (a.map Instr.ciB ++ b.map Instr.ciB) s = .next t ∧
    t.events = s.events ++ (cryptLin (a ++ b) s.lfsr).map Event.outByte ∧
    execAll (.ciLin :: (a.map Instr.ciB ++ (.ciLin :: b.map Instr.ciB))) s = .next u ∧
    u.events = s.events ++ (cryptLin a s.key ++ cryptLin b s.key).map Event.outByte) ∧
  (∀ (a : List U8) (k : U16), lfsrAdv k a.length ≠ k →
    ∃ b : List U8, cryptLin a k ++ cryptLin b k ≠ cryptLin (a ++ b) k)

/-- Rule R117 (a) to (d): the step is linear, a bijection with the inverse the rule gives, the CRC-16 divider with a
zero data bit, and has exactly two fixed points. -/
def Obligations.LfsrStepAlgebra : Prop :=
  (∀ x y : U16, lfsrStep (x ^^^ y) = lfsrStep x ^^^ lfsrStep y) ∧
  (∀ k : U16, lfsrUnstep (lfsrStep k) = k ∧ lfsrStep (lfsrUnstep k) = k) ∧
  (∀ k : U16, lfsrUnstep k =
    ((k ^^^ (if k.getLsbD 0 then 0x1021#16 else 0x0000#16)) >>> 1) ||| ((k &&& 1#16) <<< 15)) ∧
  (∀ k : U16, lfsrStep k = c16Bit k false ∧ lfsrAdv k 8 = c16Byte k 0x00#8) ∧
  (∀ k : U16, lfsrStep k = k ↔ k = 0x0000#16 ∨ k = 0xF01F#16)

/-- Rule R117 (e): every value but the two fixed points returns to itself after exactly 32767 steps and not before; it
lies on the cycle of 0xFFFF or on that of 0x0001, which are two; within 32 steps no value repeats. -/
def Obligations.LfsrCycleStructure : Prop :=
  (∀ k : U16, k ≠ 0x0000#16 → k ≠ 0xF01F#16 →
    (∀ n : Nat, lfsrAdv k n = k ↔ 32767 ∣ n) ∧
    ((∃ n : Nat, n < 32767 ∧ lfsrAdv 0xFFFF#16 n = k) ∨ (∃ n : Nat, n < 32767 ∧ lfsrAdv 0x0001#16 n = k)) ∧
    (∀ m n : Nat, m < 32 → n < 32 → lfsrAdv k m = lfsrAdv k n → m = n)) ∧
  (∀ n : Nat, lfsrAdv 0xFFFF#16 n ≠ 0x0001#16)

/-- Rule R118: only address bits 17:0 matter in SFC mode, and the keystream repeats every 0x40000 bytes. -/
def Obligations.SfcAddressPeriod : Prop :=
  (∀ (key : U16) (a b : Addr), a.extractLsb' 0 18 = b.extractLsb' 0 18 → sfcState key a = sfcState key b) ∧
  (∀ (key : U16) (a : Addr), sfcState key a = sfcState key (a + 0x40000#32)) ∧
  (∀ (data : List U8) (key : U16) (a : Addr), cryptSfc data key a = cryptSfc data key (a + 0x40000#32))

/-- Rule R119: the two degenerate LFSR values, when they occur, and what they do. -/
def Obligations.DegenerateLfsrValues : Prop :=
  (∀ (k : U16) (n : Nat), (lfsrAdv k n = 0x0000#16 ↔ k = 0x0000#16) ∧ (lfsrAdv k n = 0xF01F#16 ↔ k = 0xF01F#16)) ∧
  ks 0x0000#16 = 0x00#8 ∧ ks 0xF01F#16 = 0x1F#8 ∧
  (∀ data : List U8, cryptLin data 0x0000#16 = data ∧ cryptLin data 0xF01F#16 = data.map (· ^^^ 0x1F#8)) ∧
  (∀ s : State, ∃ t, exec .ciLin s = .next t ∧ (t.lfsr = 0x0000#16 ↔ s.key = 0x0000#16) ∧
    (t.lfsr = 0xF01F#16 ↔ s.key = 0xF01F#16)) ∧
  (∀ (key : U16) (a : Addr),
    (sfcBlockKey key a = 0x0000#16 ↔ sfcState key a = 0x0000#16) ∧
    (sfcBlockKey key a = 0xF01F#16 ↔ sfcState key a = 0xF01F#16) ∧
    (sfcState key a = 0x0000#16 ↔ key.extractLsb' 0 3 = 0#3 ∧ key.extractLsb' 3 13 = a.extractLsb' 5 13) ∧
    (sfcState key a = 0xF01F#16 ↔
      key.extractLsb' 0 3 = 7#3 ∧ key.extractLsb' 3 13 ^^^ a.extractLsb' 5 13 = 0x1E03#13)) ∧
  (∀ a : Addr, sfcState 0xFFFF#16 a ≠ 0x0000#16 ∧
    (sfcState 0xFFFF#16 a = 0xF01F#16 ↔ ∃ n : Nat, sfcBlockStart a = 0x00003F80#32 + BitVec.ofNat 32 (n * 0x40000)))

/-! ## Texts (30_encoding.md rule R57) -/

/-- Rule R57 on a whole text, whose lines end in a line feed (log entry 10): the text is read line by line, and lines
that each hold a command or none, then a comment or none, give the commands in order; blank lines and comment lines
between them give nothing. -/
def Obligations.AssemblerReadsTextsLineByLine : Prop :=
  (∀ lines : List (List Char), lines ≠ [] → (∀ line ∈ lines, '\n' ∉ line) →
    assemble (String.ofList (['\n'].intercalate lines)) = assembleLines lines) ∧
  (∀ items : List (Option Instr × Option (List Char)), (∀ p ∈ items, ∀ c, p.2 = some c → '\n' ∉ c) →
    assemble (String.ofList (['\n'].intercalate (items.map (fun p => printLine p.1 p.2)))) =
      .ok (items.filterMap Prod.fst))
end

