-- ==== Sys2Proof/Laws/Assembler.lean ====
section
/-! SUPPORT. The small lemmas of the assembler's digits, literals and lines. -/

namespace Sys2Proof.Machine

/-- Reading a digit that was written gives its value. -/
theorem digitValue_hexDigit : ∀ d < 16, digitValue (hexDigit d) = some d := by decide

/-- A digit ends no word, no command part and no line. -/
theorem hexDigit_plain : ∀ d < 16, isSeparator (hexDigit d) = false ∧ hexDigit d ≠ ';' ∧ hexDigit d ≠ '\n' ∧
    hexDigit d ≠ 'x' := by
  intro d hd
  interval_cases d <;> decide

/-- A mnemonic ends no word, no command part and no line. -/
theorem mnemonic_text_plain (m : Mnemonic) :
    ∀ c ∈ m.text.toList, isSeparator c = false ∧ c ≠ ';' ∧ c ≠ '\n' := by
  cases m <;> simp [Mnemonic.text, isSeparator]

/-- Digits are read most significant first. -/
theorem digitsFrom_hexDigit {base : Nat} (hb : base ≤ 16) (ds : List Nat) (acc : Nat) (h : ∀ d ∈ ds, d < base) :
    digitsFrom base acc (ds.map hexDigit) = some (ds.foldl (fun v d => base * v + d) acc) := by
  induction ds generalizing acc with
  | nil => rfl
  | cons d rest ih =>
    have hd : d < base := h d List.mem_cons_self
    simp only [List.map_cons, digitsFrom, digitValue_hexDigit d (by omega), hd, if_true, List.foldl_cons]
    rw [ih _ (fun x hx => h x (List.mem_cons_of_mem d hx)), Nat.mul_comm acc base]

/-- The comment of a line gives no words. -/
theorem lineWords_comment (line comment : List Char) (h : ∀ c ∈ line, c ≠ ';') :
    lineWords (line ++ ';' :: comment) = lineWords line := by
  have ht : ∀ c ∈ line, (c != ';') = true := fun c hc => by simpa using h c hc
  simp [lineWords, List.takeWhile_append_of_pos ht, List.takeWhile_eq_self_iff.mpr ht]

end Sys2Proof.Machine
end

