-- ==== Sys2Proof/Laws/Decode.lean ====
section
/-! SUPPORT. The fields of a word that is made of an opcode and an argument, and what the decoder answers, said once
by its two tests. -/

namespace Sys2Proof

@[simp] theorem opField_commandWord (op : U8) (arg : U32) : opField (commandWord op arg) = op := by
  apply BitVec.eq_of_getLsbD_eq
  intro i hi
  simp only [opField, commandWord, BitVec.getLsbD_extractLsb', BitVec.getLsbD_append]
  simp [hi]

@[simp] theorem argField_commandWord (op : U8) (arg : U32) : argField (commandWord op arg) = arg := by
  apply BitVec.eq_of_getLsbD_eq
  intro i hi
  simp only [argField, commandWord, BitVec.getLsbD_extractLsb', BitVec.getLsbD_append]
  simp [hi]

/-- A word is its opcode and its argument (30_encoding.md rule R50). -/
theorem commandWord_fields (w : CommandWord) : commandWord (opField w) (argField w) = w := by
  apply BitVec.eq_of_getLsbD_eq
  intro i hi
  simp only [commandWord, opField, argField, BitVec.getLsbD_append, BitVec.getLsbD_extractLsb']
  by_cases h : i < 32
  · simp [h]
  · have h8 : i - 32 < 8 := by omega
    simp [h, h8]
    congr 1
    omega

/-- The opcode map answers the mnemonic that has the opcode. -/
theorem mnemonicOf_opcode (m : Mnemonic) : mnemonicOf m.opcode = some m := by
  cases m <;> decide

/-- Only the opcode of a mnemonic is mapped to it. -/
theorem opcode_of_mnemonicOf {op : U8} {m : Mnemonic} (h : mnemonicOf op = some m) : m.opcode = op := by
  simpa using List.find?_some h

/-- What a successful decoding says of the word. -/
theorem decode_ok_iff {w : CommandWord} {i : Instr} :
    decode w = .ok i ↔ ∃ m, mnemonicOf (opField w) = some m ∧ argField w &&& m.format.mustBeZero = 0#32 ∧
      m.build (argField w) = i := by
  unfold decode
  split
  · next h => simp [h]
  · next m h =>
    split
    · next hz => simp [h, hz]
    · next hz => simp [h, hz]

/-- Decoding a word made of an opcode of the table and an argument whose must-be-zero bits are 0. -/
theorem decode_commandWord (m : Mnemonic) (arg : U32) (h : arg &&& m.format.mustBeZero = 0#32) :
    decode (commandWord m.opcode arg) = .ok (m.build arg) := by
  rw [decode_ok_iff]
  exact ⟨m, by simp [mnemonicOf_opcode], by simpa using h, by simp⟩

end Sys2Proof
end

