-- ==== Sys2Proof/Laws/State.lean ====
section
/-! SUPPORT. One lemma per field per update of the state, and the registers that an update leaves, so that no proof
unfolds a record update. -/

namespace Sys2Proof.Machine

/-! ### `State.setC16` -/

@[simp] theorem State.setC16_c16 (s : State) (v : U16) : (s.setC16 v).c16 = v := rfl
@[simp] theorem State.setC16_c32 (s : State) (v : U16) : (s.setC16 v).c32 = s.c32 := rfl
@[simp] theorem State.setC16_key (s : State) (v : U16) : (s.setC16 v).key = s.key := rfl
@[simp] theorem State.setC16_lfsr (s : State) (v : U16) : (s.setC16 v).lfsr = s.lfsr := rfl
@[simp] theorem State.setC16_mode (s : State) (v : U16) : (s.setC16 v).mode = s.mode := rfl
@[simp] theorem State.setC16_addr (s : State) (v : U16) : (s.setC16 v).addr = s.addr := rfl
@[simp] theorem State.setC16_events (s : State) (v : U16) : (s.setC16 v).events = s.events := rfl
@[simp] theorem State.setC16_cmds (s : State) (v : U16) : (s.setC16 v).cmds = s.cmds := rfl
@[simp] theorem State.setC16_ci (s : State) (v : U16) : (s.setC16 v).ci = s.ci := rfl
@[simp] theorem State.setC16_fault (s : State) (v : U16) : (s.setC16 v).fault = s.fault := rfl

/-! ### `State.setC32` -/

@[simp] theorem State.setC32_c16 (s : State) (v : U32) : (s.setC32 v).c16 = s.c16 := rfl
@[simp] theorem State.setC32_c32 (s : State) (v : U32) : (s.setC32 v).c32 = v := rfl
@[simp] theorem State.setC32_key (s : State) (v : U32) : (s.setC32 v).key = s.key := rfl
@[simp] theorem State.setC32_lfsr (s : State) (v : U32) : (s.setC32 v).lfsr = s.lfsr := rfl
@[simp] theorem State.setC32_mode (s : State) (v : U32) : (s.setC32 v).mode = s.mode := rfl
@[simp] theorem State.setC32_addr (s : State) (v : U32) : (s.setC32 v).addr = s.addr := rfl
@[simp] theorem State.setC32_events (s : State) (v : U32) : (s.setC32 v).events = s.events := rfl
@[simp] theorem State.setC32_cmds (s : State) (v : U32) : (s.setC32 v).cmds = s.cmds := rfl
@[simp] theorem State.setC32_ci (s : State) (v : U32) : (s.setC32 v).ci = s.ci := rfl
@[simp] theorem State.setC32_fault (s : State) (v : U32) : (s.setC32 v).fault = s.fault := rfl

/-! ### `State.setKey` -/

@[simp] theorem State.setKey_c16 (s : State) (v : U16) : (s.setKey v).c16 = s.c16 := rfl
@[simp] theorem State.setKey_c32 (s : State) (v : U16) : (s.setKey v).c32 = s.c32 := rfl
@[simp] theorem State.setKey_key (s : State) (v : U16) : (s.setKey v).key = v := rfl
@[simp] theorem State.setKey_lfsr (s : State) (v : U16) : (s.setKey v).lfsr = s.lfsr := rfl
@[simp] theorem State.setKey_mode (s : State) (v : U16) : (s.setKey v).mode = s.mode := rfl
@[simp] theorem State.setKey_addr (s : State) (v : U16) : (s.setKey v).addr = s.addr := rfl
@[simp] theorem State.setKey_events (s : State) (v : U16) : (s.setKey v).events = s.events := rfl
@[simp] theorem State.setKey_cmds (s : State) (v : U16) : (s.setKey v).cmds = s.cmds := rfl
@[simp] theorem State.setKey_ci (s : State) (v : U16) : (s.setKey v).ci = s.ci := rfl
@[simp] theorem State.setKey_fault (s : State) (v : U16) : (s.setKey v).fault = s.fault := rfl

/-! ### `State.setLfsr` -/

@[simp] theorem State.setLfsr_c16 (s : State) (v : U16) : (s.setLfsr v).c16 = s.c16 := rfl
@[simp] theorem State.setLfsr_c32 (s : State) (v : U16) : (s.setLfsr v).c32 = s.c32 := rfl
@[simp] theorem State.setLfsr_key (s : State) (v : U16) : (s.setLfsr v).key = s.key := rfl
@[simp] theorem State.setLfsr_lfsr (s : State) (v : U16) : (s.setLfsr v).lfsr = v := rfl
@[simp] theorem State.setLfsr_mode (s : State) (v : U16) : (s.setLfsr v).mode = s.mode := rfl
@[simp] theorem State.setLfsr_addr (s : State) (v : U16) : (s.setLfsr v).addr = s.addr := rfl
@[simp] theorem State.setLfsr_events (s : State) (v : U16) : (s.setLfsr v).events = s.events := rfl
@[simp] theorem State.setLfsr_cmds (s : State) (v : U16) : (s.setLfsr v).cmds = s.cmds := rfl
@[simp] theorem State.setLfsr_ci (s : State) (v : U16) : (s.setLfsr v).ci = s.ci := rfl
@[simp] theorem State.setLfsr_fault (s : State) (v : U16) : (s.setLfsr v).fault = s.fault := rfl

/-! ### `State.setMode` -/

@[simp] theorem State.setMode_c16 (s : State) (v : Mode) : (s.setMode v).c16 = s.c16 := rfl
@[simp] theorem State.setMode_c32 (s : State) (v : Mode) : (s.setMode v).c32 = s.c32 := rfl
@[simp] theorem State.setMode_key (s : State) (v : Mode) : (s.setMode v).key = s.key := rfl
@[simp] theorem State.setMode_lfsr (s : State) (v : Mode) : (s.setMode v).lfsr = s.lfsr := rfl
@[simp] theorem State.setMode_mode (s : State) (v : Mode) : (s.setMode v).mode = v := rfl
@[simp] theorem State.setMode_addr (s : State) (v : Mode) : (s.setMode v).addr = s.addr := rfl
@[simp] theorem State.setMode_events (s : State) (v : Mode) : (s.setMode v).events = s.events := rfl
@[simp] theorem State.setMode_cmds (s : State) (v : Mode) : (s.setMode v).cmds = s.cmds := rfl
@[simp] theorem State.setMode_ci (s : State) (v : Mode) : (s.setMode v).ci = s.ci := rfl
@[simp] theorem State.setMode_fault (s : State) (v : Mode) : (s.setMode v).fault = s.fault := rfl

/-! ### `State.setAddr` -/

@[simp] theorem State.setAddr_c16 (s : State) (v : Addr) : (s.setAddr v).c16 = s.c16 := rfl
@[simp] theorem State.setAddr_c32 (s : State) (v : Addr) : (s.setAddr v).c32 = s.c32 := rfl
@[simp] theorem State.setAddr_key (s : State) (v : Addr) : (s.setAddr v).key = s.key := rfl
@[simp] theorem State.setAddr_lfsr (s : State) (v : Addr) : (s.setAddr v).lfsr = s.lfsr := rfl
@[simp] theorem State.setAddr_mode (s : State) (v : Addr) : (s.setAddr v).mode = s.mode := rfl
@[simp] theorem State.setAddr_addr (s : State) (v : Addr) : (s.setAddr v).addr = v := rfl
@[simp] theorem State.setAddr_events (s : State) (v : Addr) : (s.setAddr v).events = s.events := rfl
@[simp] theorem State.setAddr_cmds (s : State) (v : Addr) : (s.setAddr v).cmds = s.cmds := rfl
@[simp] theorem State.setAddr_ci (s : State) (v : Addr) : (s.setAddr v).ci = s.ci := rfl
@[simp] theorem State.setAddr_fault (s : State) (v : Addr) : (s.setAddr v).fault = s.fault := rfl

/-! ### `State.emit` -/

@[simp] theorem State.emit_c16 (s : State) (ev : Event) : (s.emit ev).c16 = s.c16 := rfl
@[simp] theorem State.emit_c32 (s : State) (ev : Event) : (s.emit ev).c32 = s.c32 := rfl
@[simp] theorem State.emit_key (s : State) (ev : Event) : (s.emit ev).key = s.key := rfl
@[simp] theorem State.emit_lfsr (s : State) (ev : Event) : (s.emit ev).lfsr = s.lfsr := rfl
@[simp] theorem State.emit_mode (s : State) (ev : Event) : (s.emit ev).mode = s.mode := rfl
@[simp] theorem State.emit_addr (s : State) (ev : Event) : (s.emit ev).addr = s.addr := rfl
@[simp] theorem State.emit_events (s : State) (ev : Event) : (s.emit ev).events = s.events ++ [ev] := rfl
@[simp] theorem State.emit_cmds (s : State) (ev : Event) : (s.emit ev).cmds = s.cmds := rfl
@[simp] theorem State.emit_ci (s : State) (ev : Event) : (s.emit ev).ci = s.ci := rfl
@[simp] theorem State.emit_fault (s : State) (ev : Event) : (s.emit ev).fault = s.fault := rfl
@[simp] theorem State.emit_registers (s : State) (ev : Event) : (s.emit ev).registers = s.registers := rfl

/-! ### `State.advanceCi` -/

@[simp] theorem State.advanceCi_c16 (s : State) : (s.advanceCi).c16 = s.c16 := rfl
@[simp] theorem State.advanceCi_c32 (s : State) : (s.advanceCi).c32 = s.c32 := rfl
@[simp] theorem State.advanceCi_key (s : State) : (s.advanceCi).key = s.key := rfl
@[simp] theorem State.advanceCi_lfsr (s : State) : (s.advanceCi).lfsr = s.lfsr := rfl
@[simp] theorem State.advanceCi_mode (s : State) : (s.advanceCi).mode = s.mode := rfl
@[simp] theorem State.advanceCi_addr (s : State) : (s.advanceCi).addr = s.addr := rfl
@[simp] theorem State.advanceCi_events (s : State) : (s.advanceCi).events = s.events := rfl
@[simp] theorem State.advanceCi_cmds (s : State) : (s.advanceCi).cmds = s.cmds := rfl
@[simp] theorem State.advanceCi_ci (s : State) : (s.advanceCi).ci = s.ci + 1 := rfl
@[simp] theorem State.advanceCi_fault (s : State) : (s.advanceCi).fault = s.fault := rfl
@[simp] theorem State.advanceCi_registers (s : State) : (s.advanceCi).registers = s.registers := rfl

/-! ### `State.present` -/

@[simp] theorem State.present_c16 (s : State) (ws : List CommandWord) : (s.present ws).c16 = s.c16 := rfl
@[simp] theorem State.present_c32 (s : State) (ws : List CommandWord) : (s.present ws).c32 = s.c32 := rfl
@[simp] theorem State.present_key (s : State) (ws : List CommandWord) : (s.present ws).key = s.key := rfl
@[simp] theorem State.present_lfsr (s : State) (ws : List CommandWord) : (s.present ws).lfsr = s.lfsr := rfl
@[simp] theorem State.present_mode (s : State) (ws : List CommandWord) : (s.present ws).mode = s.mode := rfl
@[simp] theorem State.present_addr (s : State) (ws : List CommandWord) : (s.present ws).addr = s.addr := rfl
@[simp] theorem State.present_events (s : State) (ws : List CommandWord) : (s.present ws).events = s.events := rfl
@[simp] theorem State.present_cmds (s : State) (ws : List CommandWord) : (s.present ws).cmds = s.cmds ++ ws := rfl
@[simp] theorem State.present_ci (s : State) (ws : List CommandWord) : (s.present ws).ci = s.ci := rfl
@[simp] theorem State.present_fault (s : State) (ws : List CommandWord) : (s.present ws).fault = s.fault := rfl
@[simp] theorem State.present_registers (s : State) (ws : List CommandWord) : (s.present ws).registers = s.registers := rfl

/-! ### `State.load` -/

@[simp] theorem State.load_c16 (s : State) (ws : List CommandWord) : (s.load ws).c16 = s.c16 := rfl
@[simp] theorem State.load_c32 (s : State) (ws : List CommandWord) : (s.load ws).c32 = s.c32 := rfl
@[simp] theorem State.load_key (s : State) (ws : List CommandWord) : (s.load ws).key = s.key := rfl
@[simp] theorem State.load_lfsr (s : State) (ws : List CommandWord) : (s.load ws).lfsr = s.lfsr := rfl
@[simp] theorem State.load_mode (s : State) (ws : List CommandWord) : (s.load ws).mode = s.mode := rfl
@[simp] theorem State.load_addr (s : State) (ws : List CommandWord) : (s.load ws).addr = s.addr := rfl
@[simp] theorem State.load_events (s : State) (ws : List CommandWord) : (s.load ws).events = s.events := rfl
@[simp] theorem State.load_cmds (s : State) (ws : List CommandWord) : (s.load ws).cmds = ws := rfl
@[simp] theorem State.load_ci (s : State) (ws : List CommandWord) : (s.load ws).ci = 0 := rfl
@[simp] theorem State.load_fault (s : State) (ws : List CommandWord) : (s.load ws).fault = s.fault := rfl
@[simp] theorem State.load_registers (s : State) (ws : List CommandWord) : (s.load ws).registers = s.registers := rfl

/-! ### `State.recordFault` -/

@[simp] theorem State.recordFault_c16 (s : State) (f : Fault) : (s.recordFault f).c16 = s.c16 := rfl
@[simp] theorem State.recordFault_c32 (s : State) (f : Fault) : (s.recordFault f).c32 = s.c32 := rfl
@[simp] theorem State.recordFault_key (s : State) (f : Fault) : (s.recordFault f).key = s.key := rfl
@[simp] theorem State.recordFault_lfsr (s : State) (f : Fault) : (s.recordFault f).lfsr = s.lfsr := rfl
@[simp] theorem State.recordFault_mode (s : State) (f : Fault) : (s.recordFault f).mode = s.mode := rfl
@[simp] theorem State.recordFault_addr (s : State) (f : Fault) : (s.recordFault f).addr = s.addr := rfl
@[simp] theorem State.recordFault_events (s : State) (f : Fault) : (s.recordFault f).events = s.events := rfl
@[simp] theorem State.recordFault_cmds (s : State) (f : Fault) : (s.recordFault f).cmds = s.cmds := rfl
@[simp] theorem State.recordFault_ci (s : State) (f : Fault) : (s.recordFault f).ci = s.ci := rfl
@[simp] theorem State.recordFault_fault (s : State) (f : Fault) : (s.recordFault f).fault = some f := rfl
@[simp] theorem State.recordFault_registers (s : State) (f : Fault) : (s.recordFault f).registers = s.registers := rfl

/-- The fetch reads the list and the index only. -/
@[simp] theorem State.fetch_eq (s : State) : s.fetch = s.cmds[s.ci]? := rfl

@[simp] theorem State.hostReset_eq (s : State) : s.hostReset = State.reset := rfl

end Sys2Proof.Machine
end

