-- ==== Sys2Proof/Laws/Exec.lean ====
section
/-! SUPPORT. What each command answers, one equation a command, and what every command leaves of the fields that are
no registers. -/

namespace Sys2Proof.Machine

@[simp] theorem exec_c16Ld (v : U16) (s : State) : exec (.c16Ld v) s = .next (s.setC16 v) := rfl
@[simp] theorem exec_c16B (b : U8) (s : State) : exec (.c16B b) s = .next (s.setC16 (c16Byte s.c16 b)) := rfl
@[simp] theorem exec_c16Rd (s : State) : exec .c16Rd s = .next (s.emit (.outC16 s.c16)) := rfl
@[simp] theorem exec_c32Ld (v : U32) (s : State) : exec (.c32Ld v) s = .next (s.setC32 v) := rfl
@[simp] theorem exec_c32B (b : U8) (s : State) : exec (.c32B b) s = .next (s.setC32 (c32Byte s.c32 b)) := rfl
@[simp] theorem exec_c32Rd (s : State) : exec .c32Rd s = .next (s.emit (.outC32 s.c32)) := rfl
@[simp] theorem exec_ciKey (v : U16) (s : State) : exec (.ciKey v) s = .next (s.setKey v) := rfl
@[simp] theorem exec_ciLin (s : State) : exec .ciLin s = .next ((s.setMode .lin).setLfsr s.key) := rfl
@[simp] theorem exec_ciSfc (a : Addr) (s : State) :
    exec (.ciSfc a) s = .next (((s.setMode .sfc).setAddr a).setLfsr (sfcState s.key a)) := rfl

theorem exec_ciB_lin {s : State} (b : U8) (h : s.mode = .lin) : exec (.ciB b) s = .next (s.cipherStep b) := by
  simp [exec, execCiB, h]

theorem exec_ciB_sfc {s : State} (b : U8) (h : s.mode = .sfc) :
    exec (.ciB b) s = .next (s.cipherStep b).sfcAdvance := by
  simp [exec, execCiB, h]

/-- The state a command leaves: every command answers a next state. -/
def State.afterInstr (s : State) : Instr → State
  | .c16Ld v => s.setC16 v
  | .c16B b => s.setC16 (c16Byte s.c16 b)
  | .c16Rd => s.emit (.outC16 s.c16)
  | .c32Ld v => s.setC32 v
  | .c32B b => s.setC32 (c32Byte s.c32 b)
  | .c32Rd => s.emit (.outC32 s.c32)
  | .ciKey v => s.setKey v
  | .ciLin => (s.setMode .lin).setLfsr s.key
  | .ciSfc a => ((s.setMode .sfc).setAddr a).setLfsr (sfcState s.key a)
  | .ciB b => match s.mode with
    | .lin => s.cipherStep b
    | .sfc => (s.cipherStep b).sfcAdvance

/-- The outcome of a command, once for all commands. -/
theorem exec_eq (i : Instr) (s : State) : exec i s = .next (s.afterInstr i) := by
  cases i with
  | ciB b => cases h : s.mode <;> simp [exec, execCiB, State.afterInstr, h]
  | _ => rfl

/-- No command touches the list of words. -/
@[simp] theorem State.afterInstr_cmds (s : State) (i : Instr) : (s.afterInstr i).cmds = s.cmds := by
  cases i with
  | ciB b => cases h : s.mode <;> simp [State.afterInstr, h, State.cipherStep, State.sfcAdvance]
  | _ => rfl

/-- No command touches the index. -/
@[simp] theorem State.afterInstr_ci (s : State) (i : Instr) : (s.afterInstr i).ci = s.ci := by
  cases i with
  | ciB b => cases h : s.mode <;> simp [State.afterInstr, h, State.cipherStep, State.sfcAdvance]
  | _ => rfl

/-- No command touches the recorded fault. -/
@[simp] theorem State.afterInstr_fault (s : State) (i : Instr) : (s.afterInstr i).fault = s.fault := by
  cases i with
  | ciB b => cases h : s.mode <;> simp [State.afterInstr, h, State.cipherStep, State.sfcAdvance]
  | _ => rfl

end Sys2Proof.Machine
end

