-- ==== Sys2Proof/Laws/PerInstr.lean ====
section
/-! SUPPORT. Statements per command. EncodeMatchesRow: the word of a command matches the row of its mnemonic in rule
R54's table (30_encoding.md). -/

namespace Sys2Proof.Laws

/-- The word of `i` matches every row of the table that bears its mnemonic, and there is such a row. -/
def EncodeMatchesRow.Statement (i : Instr) : Prop :=
  ∃ r ∈ opcodeTable, r.name = i.mnemonic ∧ encode i &&& r.mask = r.matchBits

/-- A word of format B under its mask. -/
theorem formatB_masked (op imm : U8) :
    commandWord op (imm.setWidth 32) &&& 0xFFFFFFFF00#40 = op ++ (0#32 : U32) := by
  apply BitVec.eq_of_getLsbD_eq
  intro i hi
  simp only [commandWord, BitVec.getLsbD_and, BitVec.getLsbD_append, BitVec.getLsbD_setWidth]
  interval_cases i <;> simp

/-- A word of format H under its mask. -/
theorem formatH_masked (op : U8) (imm : U16) :
    commandWord op (imm.setWidth 32) &&& 0xFFFFFF0000#40 = op ++ (0#32 : U32) := by
  apply BitVec.eq_of_getLsbD_eq
  intro i hi
  simp only [commandWord, BitVec.getLsbD_and, BitVec.getLsbD_append, BitVec.getLsbD_setWidth]
  interval_cases i <;> simp

/-- A word of format W under its mask. -/
theorem formatW_masked (op : U8) (imm : U32) :
    commandWord op imm &&& 0xFF00000000#40 = op ++ (0#32 : U32) := by
  apply BitVec.eq_of_getLsbD_eq
  intro i hi
  simp only [commandWord, BitVec.getLsbD_and, BitVec.getLsbD_append]
  interval_cases i <;> simp

theorem EncodeMatchesRow.c16Ld (imm : U16) : EncodeMatchesRow.Statement (.c16Ld imm) :=
  ⟨⟨.c16Ld, 0x10#8, .H, 0x1000000000#40, 0xFFFFFF0000#40⟩, by decide, rfl, formatH_masked 0x10#8 imm⟩

theorem EncodeMatchesRow.c16B (imm : U8) : EncodeMatchesRow.Statement (.c16B imm) :=
  ⟨⟨.c16B, 0x11#8, .B, 0x1100000000#40, 0xFFFFFFFF00#40⟩, by decide, rfl, formatB_masked 0x11#8 imm⟩

theorem EncodeMatchesRow.c16Rd : EncodeMatchesRow.Statement .c16Rd :=
  ⟨⟨.c16Rd, 0x12#8, .N, 0x1200000000#40, 0xFFFFFFFFFF#40⟩, by decide, rfl, by decide⟩

theorem EncodeMatchesRow.c32Ld (imm : U32) : EncodeMatchesRow.Statement (.c32Ld imm) :=
  ⟨⟨.c32Ld, 0x20#8, .W, 0x2000000000#40, 0xFF00000000#40⟩, by decide, rfl, formatW_masked 0x20#8 imm⟩

theorem EncodeMatchesRow.c32B (imm : U8) : EncodeMatchesRow.Statement (.c32B imm) :=
  ⟨⟨.c32B, 0x21#8, .B, 0x2100000000#40, 0xFFFFFFFF00#40⟩, by decide, rfl, formatB_masked 0x21#8 imm⟩

theorem EncodeMatchesRow.c32Rd : EncodeMatchesRow.Statement .c32Rd :=
  ⟨⟨.c32Rd, 0x22#8, .N, 0x2200000000#40, 0xFFFFFFFFFF#40⟩, by decide, rfl, by decide⟩

theorem EncodeMatchesRow.ciKey (imm : U16) : EncodeMatchesRow.Statement (.ciKey imm) :=
  ⟨⟨.ciKey, 0x30#8, .H, 0x3000000000#40, 0xFFFFFF0000#40⟩, by decide, rfl, formatH_masked 0x30#8 imm⟩

theorem EncodeMatchesRow.ciLin : EncodeMatchesRow.Statement .ciLin :=
  ⟨⟨.ciLin, 0x31#8, .N, 0x3100000000#40, 0xFFFFFFFFFF#40⟩, by decide, rfl, by decide⟩

theorem EncodeMatchesRow.ciSfc (imm : Addr) : EncodeMatchesRow.Statement (.ciSfc imm) :=
  ⟨⟨.ciSfc, 0x32#8, .W, 0x3200000000#40, 0xFF00000000#40⟩, by decide, rfl, formatW_masked 0x32#8 imm⟩

theorem EncodeMatchesRow.ciB (imm : U8) : EncodeMatchesRow.Statement (.ciB imm) :=
  ⟨⟨.ciB, 0x33#8, .B, 0x3300000000#40, 0xFFFFFFFF00#40⟩, by decide, rfl, formatB_masked 0x33#8 imm⟩

end Sys2Proof.Laws
end

