-- ==== Sys2Proof/Laws/Step.lean ====
section
/-! SUPPORT. Everything one step can do, said once; and the one induction over the host's acts. -/

namespace Sys2Proof.Machine

/-- With a fault recorded a step answers that fault. -/
theorem step_faulted {s : State} {f : Fault} (h : s.fault = some f) : step s = .fault f := by
  simp [step, h]

/-- With no command left a step leaves the state. -/
theorem step_idle {s : State} (hf : s.fault = none) (h : s.cmds[s.ci]? = none) : step s = .next s := by
  simp [step, hf, h]

/-- A step at a word that decodes performs its command and moves to the next word. -/
theorem step_legal {s : State} {w : CommandWord} {i : Instr} (hf : s.fault = none) (h : s.cmds[s.ci]? = some w)
    (hd : decode w = .ok i) : step s = .next (s.afterInstr i).advanceCi := by
  simp [step, hf, h, performWord, hd, exec_eq, afterCommand]

/-- A step at a word that does not decode raises the fault. -/
theorem step_illegal {s : State} {w : CommandWord} {e : DecodeError} (hf : s.fault = none)
    (h : s.cmds[s.ci]? = some w) (hd : decode w = .error e) : step s = .fault (.illegalCommand w s.ci) := by
  simp [step, hf, h, performWord, hd, State.raiseIllegal]

/-- All that a step can do: repeat a recorded fault, hold the state, perform one command, or raise the fault. -/
theorem step_cases (s : State) :
    (∃ f, s.fault = some f ∧ step s = .fault f) ∨
    (s.fault = none ∧ s.cmds[s.ci]? = none ∧ step s = .next s) ∨
    (∃ w i, s.fault = none ∧ s.cmds[s.ci]? = some w ∧ decode w = .ok i ∧
      step s = .next (s.afterInstr i).advanceCi) ∨
    (∃ w e, s.fault = none ∧ s.cmds[s.ci]? = some w ∧ decode w = .error e ∧
      step s = .fault (.illegalCommand w s.ci)) := by
  cases hf : s.fault with
  | some f => exact .inl ⟨f, rfl, step_faulted hf⟩
  | none =>
    refine .inr ?_
    cases h : s.cmds[s.ci]? with
    | none => exact .inl ⟨rfl, rfl, step_idle hf h⟩
    | some w =>
      refine .inr ?_
      cases hd : decode w with
      | ok i => exact .inl ⟨w, i, rfl, rfl, hd, step_legal hf h hd⟩
      | error e => exact .inr ⟨w, e, rfl, rfl, hd, step_illegal hf h hd⟩

/-- A property that every act keeps holds after any list of acts. -/
theorem acts_induction {P : State → Prop} (h : ∀ s a, P s → P (s.act a)) {s : State} (hs : P s)
    (as : List HostAct) : P (s.acts as) := by
  induction as generalizing s with
  | nil => exact hs
  | cons a rest ih => exact ih (h s a hs)

/-- A run goes on from the next state of its first step. -/
theorem run_of_next {s t : State} (h : step s = .next t) (n : Nat) :
    Host.Core.run Sys2Proof.core (n + 1) s = Host.Core.run Sys2Proof.core n t := by
  have hc : Sys2Proof.core.step s = .next t := h
  simp [Host.Core.run, hc]

/-- A run whose first step faults is that fault. -/
theorem run_of_fault {s : State} {f : Fault} (h : step s = .fault f) (n : Nat) :
    Host.Core.run Sys2Proof.core (n + 1) s = .fault f := by
  have hc : Sys2Proof.core.step s = .fault f := h
  simp [Host.Core.run, hc]

/-- A command list's effect, command by command. -/
theorem execAll_eq (is : List Instr) (s : State) : execAll is s = .next (is.foldl State.afterInstr s) := by
  induction is generalizing s with
  | nil => rfl
  | cons i rest ih => simp [execAll, exec_eq, ih]

end Sys2Proof.Machine
end

