-- ==== Sys2Proof/Laws/Units.lean ====
section
/-! SUPPORT. The small lemmas of the units' functions: how each unfolds over a sequence and over a count. -/

namespace Sys2Proof.Machine

@[simp] theorem crc16_nil (c : U16) : crc16 [] c = c := rfl
@[simp] theorem crc16_cons (b : U8) (rest : List U8) (c : U16) : crc16 (b :: rest) c = crc16 rest (c16Byte c b) := rfl
@[simp] theorem crc32_nil (c : U32) : crc32 [] c = c := rfl
@[simp] theorem crc32_cons (b : U8) (rest : List U8) (c : U32) : crc32 (b :: rest) c = crc32 rest (c32Byte c b) := rfl

/-- A byte step is its eight bit steps, bit 7 first. -/
theorem c16Byte_steps (c : U16) (b : U8) :
    c16Byte c b = c16Bit (c16Bit (c16Bit (c16Bit (c16Bit (c16Bit (c16Bit (c16Bit c (b.getLsbD 7)) (b.getLsbD 6))
      (b.getLsbD 5)) (b.getLsbD 4)) (b.getLsbD 3)) (b.getLsbD 2)) (b.getLsbD 1)) (b.getLsbD 0) := rfl

/-- A byte step is its eight bit steps, bit 0 first. -/
theorem c32Byte_steps (c : U32) (b : U8) :
    c32Byte c b = c32Bit (c32Bit (c32Bit (c32Bit (c32Bit (c32Bit (c32Bit (c32Bit c (b.getLsbD 0)) (b.getLsbD 1))
      (b.getLsbD 2)) (b.getLsbD 3)) (b.getLsbD 4)) (b.getLsbD 5)) (b.getLsbD 6)) (b.getLsbD 7) := rfl

@[simp] theorem lfsrAdv_zero (k : U16) : lfsrAdv k 0 = k := rfl
theorem lfsrAdv_succ (k : U16) (n : Nat) : lfsrAdv k (n + 1) = lfsrStep (lfsrAdv k n) := rfl

/-- Steps add up. -/
theorem lfsrAdv_add (k : U16) (m n : Nat) : lfsrAdv k (m + n) = lfsrAdv (lfsrAdv k m) n := by
  induction n with
  | zero => rfl
  | succ n ih => rw [← Nat.add_assoc, lfsrAdv_succ, lfsrAdv_succ, ih]

/-- A step first, then the rest. -/
theorem lfsrAdv_step (k : U16) (n : Nat) : lfsrAdv (lfsrStep k) n = lfsrAdv k (n + 1) := by
  rw [Nat.add_comm, lfsrAdv_add]
  rfl

@[simp] theorem cryptLin_nil (k : U16) : cryptLin [] k = [] := rfl
@[simp] theorem cryptLin_cons (b : U8) (rest : List U8) (k : U16) :
    cryptLin (b :: rest) k = (b ^^^ ks k) :: cryptLin rest (lfsrStep k) := rfl
@[simp] theorem cryptSfc_nil (key : U16) (a : Addr) : cryptSfc [] key a = [] := rfl
@[simp] theorem cryptSfc_cons (b : U8) (rest : List U8) (key : U16) (a : Addr) :
    cryptSfc (b :: rest) key a = (b ^^^ ks (sfcState key a)) :: cryptSfc rest key (a + 1#32) := rfl
@[simp] theorem sfcEngine_nil (key : U16) (a : Addr) (k : U16) : sfcEngine [] key a k = [] := rfl
@[simp] theorem sfcEngine_cons (b : U8) (rest : List U8) (key : U16) (a : Addr) (k : U16) :
    sfcEngine (b :: rest) key a k =
      (b ^^^ ks k) :: sfcEngine rest key (a + 1#32) (sfcReload key (a + 1#32) (lfsrStep k)) := rfl

end Sys2Proof.Machine
end

