-- ==== Sys2Proof/Tests/Slice0.lean ====
section
/-! SUPPORT. The model's own tests. Expected values come from the spec: the vector named in each section's comment
(95_test_vectors.md), or the rule's own example. Then, for every statement with hypotheses, a witness that meets them. -/

namespace Sys2Proof.Tests

open Sys2Proof.Machine

/-- The next state of an outcome, if it is one. -/
def nextOf : Result → Option State
  | .next t => some t
  | .fault _ => none
  | .refused _ => none

/-- The fault of an outcome, if it is one. -/
def faultOf : Result → Option Fault
  | .next _ => none
  | .fault f => some f
  | .refused _ => none

/-- The reset state with a list of words presented. -/
def presented (ws : List CommandWord) : State := State.reset.present ws

/-- An SFC-mode state at an address, with its invariant. -/
def sfcAt (key : U16) (a : Addr) : State := ((State.reset.setKey key).setMode .sfc).setAddr a |>.setLfsr (sfcState key a)

/-! ### WellFormed refuses (rules R51, R53, R58) -/

theorem test_wf_operand_missing : RawCommand.wf ⟨.c16Ld, []⟩ = false := by decide
theorem test_wf_operand_not_asked_for : RawCommand.wf ⟨.c16Rd, [0]⟩ = false := by decide
theorem test_wf_two_operands : RawCommand.wf ⟨.c16B, [1, 2]⟩ = false := by decide
theorem test_wf_imm8_too_wide : RawCommand.wf ⟨.c16B, [256]⟩ = false := by decide
theorem test_wf_imm16_too_wide : RawCommand.wf ⟨.ciKey, [65536]⟩ = false := by decide
theorem test_wf_imm32_too_wide : RawCommand.wf ⟨.ciSfc, [4294967296]⟩ = false := by decide
theorem test_wf_widest_operand : RawCommand.wf ⟨.ciSfc, [4294967295]⟩ = true := by decide
theorem test_wf_c16Data_empty : Pseudo.wf (.c16Data []) = false := by decide
theorem test_wf_c32Data_empty : Pseudo.wf (.c32Data []) = false := by decide
theorem test_wf_ciData_empty : Pseudo.wf (.ciData []) = false := by decide

/-! ### Decoding: words written out from rule R50 and R54: opcode byte, then the argument's bits (VE-1) -/

theorem test_decode_c16Ld : decode 0b0001000000000000000000001111111111111111#40 = .ok (.c16Ld 0xFFFF#16) := by decide
theorem test_decode_c16B : decode 0b0001000100000000000000000000000000110001#40 = .ok (.c16B 0x31#8) := by decide
theorem test_decode_c16Rd : decode 0b0001001000000000000000000000000000000000#40 = .ok .c16Rd := by decide
theorem test_decode_c32Ld :
    decode 0b0010000000100110010100110110011100110100#40 = .ok (.c32Ld 0x26536734#32) := by decide
theorem test_decode_c32B : decode 0b0010000100000000000000000000000011111111#40 = .ok (.c32B 0xFF#8) := by decide
theorem test_decode_c32Rd : decode 0b0010001000000000000000000000000000000000#40 = .ok .c32Rd := by decide
theorem test_decode_ciKey : decode 0b0011000000000000000000000001001000110100#40 = .ok (.ciKey 0x1234#16) := by decide
theorem test_decode_ciLin : decode 0b0011000100000000000000000000000000000000#40 = .ok .ciLin := by decide
theorem test_decode_ciSfc :
    decode 0b0011001011111111111111111111111111111110#40 = .ok (.ciSfc 0xFFFFFFFE#32) := by decide
theorem test_decode_ciB : decode 0b0011001100000000000000000000000010100101#40 = .ok (.ciB 0xA5#8) := by decide

/-- VE-2: all of its illegal words. -/
theorem test_decode_illegal_words :
    ([0x0000000000, 0xFFFFFFFFFF, 0x0F00000000, 0x1300000000, 0x2300000000, 0x3400000000, 0x1200000001, 0x2200000100,
      0x3100000001, 0x1100000100, 0x1100000131, 0x3380000000, 0x1000010000, 0x3000010000].map
      (fun n => decodable (BitVec.ofNat 40 n))).all (· == false) = true := by decide

/-- The boundaries of rule R55's opcode ranges. -/
theorem test_decode_opcode_ranges :
    ([0x00, 0x0F, 0x13, 0x1F, 0x23, 0x2F, 0x34, 0xFF].map
      (fun n => mnemonicOf (BitVec.ofNat 8 n))).all (· == none) = true := by decide

/-- VE-1: the bytes of `CI.KEY 0x1234`. -/
theorem test_wordBytes_ciKey : wordBytes (encode (.ciKey 0x1234#16)) = [0x30#8, 0x34#8, 0x12#8, 0x00#8, 0x00#8] := by
  decide

/-- VE-1: the bytes of `C32.INIT`, read back. -/
theorem test_decodeBytes_c32Ld :
    decodeBytes [0x20#8, 0x34#8, 0x67#8, 0x53#8, 0x26#8, 0x12#8] = .ok (.c32Ld 0x26536734#32, [0x12#8]) := by decide

/-- P3: the stored field E7 0D read little-endian (R34). -/
theorem test_leWord16 : leWord16 0xE7#8 0x0D#8 = 0x0DE7#16 := by decide

theorem test_decodeTableWord : decodeTableWord 40 0x1200000000 = some .c16Rd := by decide

/-- P1's first line with its comment (rule R57). -/
theorem test_assembleLine_comment :
    assembleLine "C16.CLR                      ; C16.LD 0x0000".toList = .ok [.c16Ld 0x0000#16] := by decide

/-- `C16.B 0x131` is not "byte 0x31" (VE-2). -/
theorem test_assembleLine_too_wide : assembleLine "C16.B 0x131".toList = .error .illFormed := by decide

/-- A decimal operand (rule R57), and hex digits of either case. -/
theorem test_assembleLine_literals : assembleLine "C16.LD 4660".toList = .ok [.c16Ld 0x1234#16] ∧
    assembleLine "CI.KEY 0xaBcD".toList = .ok [.ciKey 0xABCD#16] ∧
    assembleLine "C16.B 0xG1".toList = .error .badLiteral := by decide

/-- P3's `CI.HDR`, then a `DATA` line (rule R58). -/
theorem test_assemble_hdr_data :
    assemble "CI.HDR\n\nCI.DATA 18 D2" = .ok [.ciKey 0xFFFF#16, .ciLin, .ciB 0x18#8, .ciB 0xD2#8] := by decide

/-! ### The functions (V16, V32, VC) -/

/-- V16-3. -/
theorem test_c16Bit : c16Bit 0x8000#16 false = 0x1021#16 ∧ c16Bit 0x8000#16 true = 0x0000#16 := by decide

/-- V16-5. -/
theorem test_c16Byte_asymmetric : c16Byte 0x1D0F#16 0xA5#8 = 0x29D3#16 := by decide

/-- V32-3. -/
theorem test_c32Bit : c32Bit 0x26536734#32 false = 0x1329B39A#32 ∧ c32Bit 0x26536734#32 true = 0xFE9130BA#32 := by
  decide

/-- V32-5. -/
theorem test_c32Byte_asymmetric : c32Byte 0x26536734#32 0xA5#8 = 0x872EF0B5#32 := by decide

/-- VC-1. -/
theorem test_lfsrStep : lfsrStep 0xABCD#16 = 0x47BB#16 ∧ lfsrStep 0x8810#16 = 0x0001#16 := by decide

/-- VC-8, A mod 32 = 19. -/
theorem test_sfcState : sfcBlockKey 0x1234#16 0x000048D3#32 = 0x0004#16 ∧
    sfcState 0x1234#16 0x000048D3#32 = 0x2462#16 := by decide

/-- VC-15: the address wrap. -/
theorem test_cryptSfc_wrap : cryptSfc [0#8, 0#8, 0#8] 0x1234#16 0xFFFFFFFE#32 = [0xAE#8, 0x7D#8, 0x34#8] := by decide

/-! ### One step of each command (the rules' examples) -/

/-- R73. -/
theorem test_exec_c16Ld : (nextOf (exec (.c16Ld 0x1234#16) .reset)).map (·.c16) = some 0x1234#16 := by decide
/-- R74. -/
theorem test_exec_c16B : (nextOf (exec (.c16B 0x31#8) .reset)).map (·.c16) = some 0x2672#16 := by decide
/-- R75. -/
theorem test_exec_c16Rd :
    (nextOf (exec .c16Rd (State.reset.setC16 0x2672#16))).map (·.events) = some [.outC16 0x2672#16] := by decide
/-- R89. -/
theorem test_exec_c32Ld : (nextOf (exec (.c32Ld 0xDEADBEEF#32) .reset)).map (·.c32) = some 0xDEADBEEF#32 := by decide
/-- R90. -/
theorem test_exec_c32B : (nextOf (exec (.c32B 0x31#8) .reset)).map (·.c32) = some 0x704CA7E8#32 := by decide
/-- R91, V32-9. -/
theorem test_exec_c32Rd : (nextOf (exec .c32Rd .reset)).map (·.events) = some [.outC32 0x26536734#32] := by decide
/-- R108: `LFSR` is untouched (P5b). -/
theorem test_exec_ciKey : (nextOf (exec (.ciKey 0x1234#16) .reset)).map (fun t => (t.key, t.lfsr)) =
    some (0x1234#16, 0xFFFF#16) := by decide
/-- R109, P7: `ADDR` is left where SFC mode stopped. -/
theorem test_exec_ciLin : (nextOf (exec .ciLin (sfcAt 0x1234#16 0x41#32))).map (fun t => (t.mode, t.lfsr, t.addr)) =
    some (.lin, 0x1234#16, 0x41#32) := by decide
/-- R110. -/
theorem test_exec_ciSfc :
    (nextOf (exec (.ciSfc 0x21#32) (State.reset.setKey 0x1234#16))).map (fun t => (t.mode, t.addr, t.lfsr)) =
      some (.sfc, 0x21#32, 0x2478#16) := by decide
/-- R111, linear. -/
theorem test_exec_ciB_lin : (nextOf (exec (.ciB 0x00#8) .reset)).map (fun t => (t.events, t.lfsr, t.addr)) =
    some ([.outByte 0xFF#8], 0xEFDF#16, 0x0#32) := by decide
/-- R111, SFC boundary (VC-12 gives the byte at 63). -/
theorem test_exec_ciB_sfc_boundary :
    (nextOf (exec (.ciB 0x00#8) (sfcAt 0x1234#16 0x3F#32))).map (fun t => (t.events, t.addr, t.lfsr)) =
      some ([.outByte 0x15#8], 0x40#32, 0x1224#16) := by decide

/-! ### The step (R59, R131; P5, P5b) -/

theorem test_step_legal : (nextOf (step (presented [0x1100000031#40]))).map (fun t => (t.c16, t.ci)) =
    some (0x2672#16, 1) := by decide
theorem test_step_illegal :
    faultOf (step (presented [0x1100000131#40])) = some (.illegalCommand 0x1100000131#40 0) := by decide
theorem test_step_fault_stands :
    faultOf (step ((stateAfter (presented [0x0000000000#40])).present [0x1200000000#40])) =
      some (.illegalCommand 0x0000000000#40 0) := by decide
theorem test_step_idle : nextOf (step .reset) = some .reset := by decide
theorem test_withFetchWord : (nextOf (step (State.reset.withFetchWord 40 0x3000001234))).map (·.key) =
    some 0x1234#16 := by decide
theorem test_core_is_step : nextOf (Sys2Proof.core.step (presented [0x3100000000#40])) =
    some ((presented [0x3100000000#40]).advanceCi) := by decide

/-! ### Witnesses: the hypotheses of each statement can be met -/

theorem witness_EncodeOfDecodeIsIdentity : decode 0x32FFFFFFFE#40 = .ok (.ciSfc 0xFFFFFFFE#32) := by decide

theorem witness_WordLegalIffExactlyOneTableRow :
    legalWord 0x1100000131#40 = false ∧ (presented [0x1100000131#40]).fault = none ∧
    (presented [0x1100000131#40]).cmds[(presented [0x1100000131#40]).ci]? = some 0x1100000131#40 := by decide

theorem witness_WordLegalIffExactlyOneTableRow_legal :
    legalWord 0x11000000FF#40 = true ∧ decode 0x11000000FF#40 = .ok (.c16B 0xFF#8) := by decide

theorem witness_IllegalWordsAreTheListedOnes_opcode :
    decode 0x0FFFFFFFFF#40 = .error (.unknownOpcode 0x0F#8) ∧ decode 0x3400000000#40 = .error (.unknownOpcode 0x34#8) ∧
    decode 0x1F00000000#40 = .error (.unknownOpcode 0x1F#8) ∧ decode 0x2F00000000#40 = .error (.unknownOpcode 0x2F#8) := by
  decide

theorem witness_IllegalWordsAreTheListedOnes_argument :
    decode 0x3100000001#40 = .error (.mustBeZeroBitSet .ciLin 1#32) ∧
    decode 0x3300000100#40 = .error (.mustBeZeroBitSet .ciB 0x100#32) ∧
    decode 0x3000010000#40 = .error (.mustBeZeroBitSet .ciKey 0x10000#32) := by decide

theorem witness_SerialisedListRoundTrip : [0x3000001234#40, 0x3100000000#40][1]? = some 0x3100000000#40 := by decide

theorem witness_PseudoCommandsExpand : Pseudo.wf (.ciData [0x18#8]) = true ∧ Pseudo.wf .ciHdr = true ∧
    [0x18#8] ≠ [] := by decide

theorem witness_AssemblerReadsPrintedCommands :
    Mnemonic.format .ciLin = .N ∧ Format.operandBits (Mnemonic.format .c16B) = some 8 ∧ [2, 5, 5] ≠ [] ∧
    (∀ d ∈ [2, 5, 5], d < 10) ∧ [2, 5, 5].foldl (fun v d => 10 * v + d) 0 = 2 ^ 8 - 1 ∧ (∀ d ∈ [15, 15], d < 16) := by
  decide

/-- A command with a comment, a blank line, a comment line. -/
theorem witness_AssemblerReadsTextsLineByLine :
    (∀ line ∈ ["C16.RD;x".toList, [], ";y".toList], '\n' ∉ line) ∧
    ∀ p ∈ [(some Instr.c16Rd, some ['x']), (none, none), (none, some ['y'])], ∀ c, p.2 = some c → '\n' ∉ c := by
  refine ⟨by decide, ?_⟩
  intro p hp c hc
  fin_cases hp <;> simp_all <;> (subst hc; decide)

theorem witness_StepPerformsCommandAtIndex :
    (presented [0x33000000A5#40]).fault = none ∧
    (presented [0x33000000A5#40]).cmds[(presented [0x33000000A5#40]).ci]? = some 0x33000000A5#40 ∧
    decode 0x33000000A5#40 = .ok (.ciB 0xA5#8) := by decide

theorem witness_IllegalWordFaultsWithoutEffect :
    (presented [0x1200000001#40]).fault = none ∧
    (presented [0x1200000001#40]).cmds[(presented [0x1200000001#40]).ci]? = some 0x1200000001#40 ∧
    decode 0x1200000001#40 = .error (.mustBeZeroBitSet .c16Rd 1#32) := by decide

theorem witness_ResetIsOnlyWayOutOfFault :
    (State.reset.recordFault (.illegalCommand 0#40 0)).fault = some (.illegalCommand 0#40 0) ∧
    HostAct.reset ∉ [HostAct.present [0x1200000000#40], .perform] := by decide

theorem witness_RunEndsNormallyOrAtIllegalWord :
    State.reset.fault = none ∧ decode 0x0000000000#40 = .error (.unknownOpcode 0#8) := by decide

theorem witness_ListHasSameEffectWhereverItStands :
    ({ State.reset with cmds := [0#40, encode (.c16B 0x31#8), 0#40], ci := 1 } : State).fault = none ∧
    ({ State.reset with cmds := [0#40, encode (.c16B 0x31#8), 0#40], ci := 1 } : State).cmds =
      [0#40] ++ (encodeAll [.c16B 0x31#8] ++ [0#40]) ∧
    ({ State.reset with cmds := [0#40, encode (.c16B 0x31#8), 0#40], ci := 1 } : State).ci = [0#40].length := by decide

theorem witness_IdleBlockHoldsState : State.reset.fault = none ∧ State.reset.cmds.length ≤ State.reset.ci := by decide

theorem witness_RegistersAreTheWholeState :
    (presented [0#40]).registers = State.reset.registers ∧ presented [0#40] ≠ State.reset ∧ (0 : Nat) ≠ 1 := by decide

theorem witness_UnitsShareNoState :
    (State.reset.setKey 1#16).c16 = State.reset.c16 ∧ (State.reset.setC16 1#16).c32 = State.reset.c32 ∧
    (State.reset.setC32 1#32).key = State.reset.key ∧ (State.reset.setC32 1#32).lfsr = State.reset.lfsr ∧
    (State.reset.setC32 1#32).mode = State.reset.mode ∧ (State.reset.setC32 1#32).addr = State.reset.addr := by decide

theorem witness_IndexStaysInList :
    (presented [0x1200000000#40]).IndexInList ∧ (nextOf (step (presented [0x1200000000#40]))).isSome = true :=
  ⟨Nat.zero_le 1, by decide⟩

theorem witness_SfcInvariantKeptByEveryStep :
    ((sfcAt 0x1234#16 0x3F#32).present [0x3300000000#40]).SfcSynced ∧
    ((sfcAt 0x1234#16 0x3F#32).present [0x3300000000#40]).mode = .sfc ∧
    (nextOf (step ((sfcAt 0x1234#16 0x3F#32).present [0x3300000000#40]))).isSome = true ∧
    ∀ (w : CommandWord) (k : U16), [0x3300000000#40][0]? = some w → decode w ≠ .ok (.ciKey k) := by
  refine ⟨fun _ => rfl, rfl, by decide, ?_⟩
  intro w k h
  obtain rfl : 0x3300000000#40 = w := by simpa using h
  have hd : decode 0x3300000000#40 = .ok (.ciB 0#8) := by decide
  simp [hd]

theorem witness_KeyRewrittenInMidRange_linear : State.reset.mode = .lin := by decide

theorem witness_KeyRewrittenInMidRange_inside_block :
    (sfcAt 0x1234#16 0x1E#32).mode = .sfc ∧ ((sfcAt 0x1234#16 0x1E#32).addr + 1#32).toNat % 32 ≠ 0 := by decide

theorem witness_KeyRewrittenInMidRange_at_boundary :
    (sfcAt 0x1234#16 0xFFFFFFFF#32).mode = .sfc ∧ ((sfcAt 0x1234#16 0xFFFFFFFF#32).addr + 1#32).toNat % 32 = 0 := by
  decide

theorem witness_InterruptedWorkIsResumed :
    (sfcAt 0xFFFF#16 0x21#32).mode = .sfc ∧ (sfcAt 0xFFFF#16 0x21#32).SfcSynced ∧
    State.reset.key = (sfcAt 0xFFFF#16 0x21#32).key := ⟨rfl, fun _ => rfl, rfl⟩

theorem witness_SafeStatesStaySafe : (presented [0x3300000000#40, 0x1200000000#40]).safe = true := by decide

theorem witness_Crc16Linear : [0x12#8, 0x34#8, 0x56#8].length = [0xAB#8, 0xCD#8, 0xEF#8].length := by decide

theorem witness_Crc32Linear : [0x12#8].length = [0xAB#8].length := by decide

theorem witness_Crc16CommandListComputesFunction : (presented [0#40]).fault = none := by decide

theorem witness_Crc32CommandListComputesFunction : (State.reset.setC32 0#32).fault = none := by decide

theorem witness_C32ByteFeedsBitZeroFirst : (0 : Nat) < 32 ∧ (31 : Nat) < 32 := by decide

theorem witness_CipherSfcStart : (0xFFFFFFE0#32).toNat % 32 = 0 ∧ (0#32).toNat % 32 = 0 := by decide

theorem witness_CipherByteInBothModes : State.reset.mode = .lin ∧ (sfcAt 1#16 0#32).mode = .sfc := by decide

theorem witness_LfsrStepBitByBit : (0 : Nat) < 16 ∧ (15 : Nat) < 16 := by decide

theorem witness_LinearRangeClosedForm : (7 : Nat) < 8 ∧ [0x4A#8, 0x4C#8][1]? = some 0x4C#8 := by decide

theorem witness_SfcBlockKeyBitByBit :
    (15 : Nat) < 16 ∧ (0xFFFC0020#32).extractLsb' 5 13 = (0x0000003F#32).extractLsb' 5 13 := by decide

theorem witness_SfcRangeFormsAgree :
    [0x4A#8, 0x4C#8][1]? = some 0x4C#8 ∧ (0x1E#32 + 1#32).toNat % 32 ≠ 0 ∧ (0x20#32).toNat % 32 = 0 := by decide

theorem witness_LinearCommandListComputesFunction : (sfcAt 1#16 5#32).fault = none := by decide

theorem witness_SfcCommandListComputesFunction :
    State.reset.fault = none ∧ (sfcAt 0x1234#16 0x3F#32).mode = .sfc ∧
    (sfcAt 0x1234#16 0x3F#32).lfsr = sfcState (sfcAt 0x1234#16 0x3F#32).key (sfcAt 0x1234#16 0x3F#32).addr :=
  ⟨rfl, rfl, rfl⟩

/-- The document's own instance: [33, 65) inside [0, 96). -/
theorem witness_SfcPositionIndependence :
    0#32 ≤ 33#32 ∧ 33#32 ≤ 65#32 ∧ 65#32 ≤ 96#32 ∧ (List.replicate 96 0x00#8).length = (96#32 - 0#32).toNat := by
  decide

theorem witness_LinearChunking : State.reset.mode = .lin ∧ lfsrAdv 0xFFFF#16 [0x00#8].length ≠ 0xFFFF#16 := by decide

theorem witness_LfsrCycleStructure :
    (0xFFFF#16 : U16) ≠ 0x0000#16 ∧ (0xFFFF#16 : U16) ≠ 0xF01F#16 ∧ (31 : Nat) < 32 ∧
    lfsrAdv 0xFFFF#16 31 = lfsrAdv 0xFFFF#16 31 := ⟨by decide, by decide, by decide, rfl⟩

theorem witness_SfcAddressPeriod : (0x00040020#32).extractLsb' 0 18 = (0x00000020#32).extractLsb' 0 18 := by decide

end Sys2Proof.Tests
end

section
/-! PROOFS. What each unit's commands leave of the other units' registers, what they emit, and on which registers their
effect depends (00_scope.md rule R4). -/

namespace Sys2Proof.Machine

/-- `CI.B` in linear mode. -/
theorem State.afterInstr_ciB_lin {s : State} (b : U8) (h : s.mode = .lin) :
    s.afterInstr (.ciB b) = s.cipherStep b := by
  simp [State.afterInstr, h]

/-- `CI.B` in SFC mode. -/
theorem State.afterInstr_ciB_sfc {s : State} (b : U8) (h : s.mode = .sfc) :
    s.afterInstr (.ciB b) = (s.cipherStep b).sfcAdvance := by
  simp [State.afterInstr, h]

/-- `CI.B` in either mode leaves both accumulators and emits the one output byte (42_cipher.md rule R111). -/
theorem State.afterInstr_ciB_frame (s : State) (b : U8) :
    (s.afterInstr (.ciB b)).c16 = s.c16 ∧ (s.afterInstr (.ciB b)).c32 = s.c32 ∧
      (s.afterInstr (.ciB b)).events = s.events ++ [.outByte (b ^^^ ks s.lfsr)] := by
  cases h : s.mode with
  | lin => rw [State.afterInstr_ciB_lin b h]; exact ⟨rfl, rfl, rfl⟩
  | sfc => rw [State.afterInstr_ciB_sfc b h]; exact ⟨rfl, rfl, rfl⟩

/-- What a command emits on the result port (10_state.md rule R21). -/
def State.emitted (s : State) : Instr → List Event
  | .c16Rd => [.outC16 s.c16]
  | .c32Rd => [.outC32 s.c32]
  | .ciB b => [.outByte (b ^^^ ks s.lfsr)]
  | _ => []

/-- Every command appends what it emits to the history, and no command drops an event. -/
@[simp] theorem State.afterInstr_events (s : State) (i : Instr) :
    (s.afterInstr i).events = s.events ++ s.emitted i := by
  cases i with
  | c16Rd | c32Rd => rfl
  | ciB b =>
    obtain ⟨-, -, hev⟩ := s.afterInstr_ciB_frame b
    exact hev
  | _ => exact (List.append_nil _).symm

/-- Only a command of the CRC-16 unit writes `C16`. -/
theorem State.afterInstr_c16_of_unit_ne (s : State) {i : Instr} (h : i.unit ≠ .crc16) :
    (s.afterInstr i).c16 = s.c16 := by
  cases i with
  | c16Ld | c16B | c16Rd => exact absurd rfl h
  | ciB b =>
    obtain ⟨hc16, -, -⟩ := s.afterInstr_ciB_frame b
    exact hc16
  | _ => rfl

/-- Only a command of the CRC-32 unit writes `C32`. -/
theorem State.afterInstr_c32_of_unit_ne (s : State) {i : Instr} (h : i.unit ≠ .crc32) :
    (s.afterInstr i).c32 = s.c32 := by
  cases i with
  | c32Ld | c32B | c32Rd => exact absurd rfl h
  | ciB b =>
    obtain ⟨-, hc32, -⟩ := s.afterInstr_ciB_frame b
    exact hc32
  | _ => rfl

/-- Only a command of the cipher unit writes that unit's registers. -/
theorem State.afterInstr_cipher_of_unit_ne (s : State) {i : Instr} (h : i.unit ≠ .cipher) :
    (s.afterInstr i).key = s.key ∧ (s.afterInstr i).lfsr = s.lfsr ∧ (s.afterInstr i).mode = s.mode ∧
      (s.afterInstr i).addr = s.addr := by
  cases i with
  | ciKey | ciLin | ciSfc | ciB => exact absurd rfl h
  | _ => exact ⟨rfl, rfl, rfl, rfl⟩

/-- A command of the CRC-16 unit depends on `C16` alone. -/
theorem State.afterInstr_crc16_congr {s t : State} {i : Instr} (hu : i.unit = .crc16) (h : s.c16 = t.c16) :
    (s.afterInstr i).c16 = (t.afterInstr i).c16 ∧ s.emitted i = t.emitted i := by
  cases i with
  | c16Ld | c16B | c16Rd => simp [State.afterInstr, State.emitted, h]
  | _ => cases hu

/-- A command of the CRC-32 unit depends on `C32` alone. -/
theorem State.afterInstr_crc32_congr {s t : State} {i : Instr} (hu : i.unit = .crc32) (h : s.c32 = t.c32) :
    (s.afterInstr i).c32 = (t.afterInstr i).c32 ∧ s.emitted i = t.emitted i := by
  cases i with
  | c32Ld | c32B | c32Rd => simp [State.afterInstr, State.emitted, h]
  | _ => cases hu

/-- A command of the cipher unit depends on that unit's four registers alone. -/
theorem State.afterInstr_cipher_congr {s t : State} {i : Instr} (hu : i.unit = .cipher) (hk : s.key = t.key)
    (hl : s.lfsr = t.lfsr) (hm : s.mode = t.mode) (ha : s.addr = t.addr) :
    ((s.afterInstr i).key = (t.afterInstr i).key ∧ (s.afterInstr i).lfsr = (t.afterInstr i).lfsr ∧
      (s.afterInstr i).mode = (t.afterInstr i).mode ∧ (s.afterInstr i).addr = (t.afterInstr i).addr) ∧
    s.emitted i = t.emitted i := by
  cases i with
  | ciKey | ciLin | ciSfc => simp [State.afterInstr, State.emitted, hk, hl, hm, ha]
  | ciB b =>
    refine ⟨?_, by simp [State.emitted, hl]⟩
    cases h : t.mode with
    | lin =>
      rw [State.afterInstr_ciB_lin b (hm.trans h), State.afterInstr_ciB_lin b h]
      simp [State.cipherStep, hk, hl, hm, ha]
    | sfc =>
      rw [State.afterInstr_ciB_sfc b (hm.trans h), State.afterInstr_ciB_sfc b h]
      simp [State.cipherStep, State.sfcAdvance, hk, hl, hm, ha]
  | _ => cases hu

/-- Where two states' commands emit alike, both histories grow by the same events. -/
theorem State.afterInstr_events_of_emitted_eq {s t : State} {i : Instr} (h : s.emitted i = t.emitted i) :
    ∃ evs, (s.afterInstr i).events = s.events ++ evs ∧ (t.afterInstr i).events = t.events ++ evs :=
  ⟨s.emitted i, s.afterInstr_events i, h ▸ t.afterInstr_events i⟩

/-- Settles O19: a case split on the command's unit; each unit has its frame lemmas and its dependence lemma. -/
theorem unitsShareNoState : Obligations.UnitsShareNoState := by
  intro i s t
  refine ⟨s.afterInstr i, t.afterInstr i, exec_eq i s, exec_eq i t, ?_⟩
  cases hu : i.unit with
  | crc16 =>
    refine ⟨⟨s.afterInstr_c32_of_unit_ne (by simp [hu]), s.afterInstr_cipher_of_unit_ne (by simp [hu])⟩,
      fun h => ?_⟩
    obtain ⟨hreg, hev⟩ := State.afterInstr_crc16_congr hu h
    exact ⟨hreg, State.afterInstr_events_of_emitted_eq hev⟩
  | crc32 =>
    refine ⟨⟨s.afterInstr_c16_of_unit_ne (by simp [hu]), s.afterInstr_cipher_of_unit_ne (by simp [hu])⟩,
      fun h => ?_⟩
    obtain ⟨hreg, hev⟩ := State.afterInstr_crc32_congr hu h
    exact ⟨hreg, State.afterInstr_events_of_emitted_eq hev⟩
  | cipher =>
    refine ⟨⟨s.afterInstr_c16_of_unit_ne (by simp [hu]), s.afterInstr_c32_of_unit_ne (by simp [hu])⟩,
      fun hk hl hm ha => ?_⟩
    obtain ⟨⟨hkey, hlfsr, hmode, haddr⟩, hev⟩ := State.afterInstr_cipher_congr hu hk hl hm ha
    exact ⟨hkey, hlfsr, hmode, haddr, State.afterInstr_events_of_emitted_eq hev⟩

end Sys2Proof.Machine
end

section
/-! PROOFS. The units' CRC functions against the normal-form divider of a parameter list (00_scope.md rule R2;
92_eei_decisions.md D9): the CRC-16 unit is the divider itself, the CRC-32 unit is the divider with its register kept
bit-reversed (41_crc32.md rules R85, R86). -/

namespace Sys2Proof.Machine

/-- The CRC-16 bit step is the divider's. -/
theorem crc16Params_divide : crc16Params.divide = c16Bit := by
  funext c d
  simp [CrcParams.divide, c16Bit, crc16Params, BitVec.msb_eq_getLsbD_last]

/-- The CRC-16 byte step is the divider's: nothing is reflected. -/
theorem crc16Params_divideByte : crc16Params.divideByte = c16Byte := by
  funext c b
  rw [CrcParams.divideByte, crc16Params_divide]
  rfl

/-- The CRC-16 unit's function is the one its parameter list names. -/
theorem crc16Params_crc (data : List U8) (i : U16) : crc16Params.crc data i = crc16 data i := by
  rw [CrcParams.crc, crc16Params_divideByte]
  exact BitVec.xor_zero

/-- Bit reversal distributes over XOR. -/
theorem reverse_xor {n : Nat} (x y : BitVec n) : (x ^^^ y).reverse = x.reverse ^^^ y.reverse := by
  apply BitVec.eq_of_getLsbD_eq
  intro k hk
  simp [BitVec.getLsbD_reverse, BitVec.getMsbD_xor]

/-- A right shift seen in the bit-reversed word is a left shift. -/
theorem reverse_ushiftRight_one {n : Nat} (x : BitVec n) : (x >>> 1).reverse = x.reverse <<< 1 := by
  apply BitVec.eq_of_getLsbD_eq
  intro k hk
  simp [BitVec.getLsbD_reverse, Bool.and_assoc]

/-- The constant of the right-shifting register is the bit reversal of the polynomial (rule R85). -/
theorem crc32PolyR_reverse : Config.crc32PolyR.reverse = Config.crc32Poly := by
  have hbits : ∀ k < 32, Config.crc32PolyR.getMsbD k = Config.crc32Poly.getLsbD k := by decide
  apply BitVec.eq_of_getLsbD_eq
  intro k hk
  rw [BitVec.getLsbD_reverse, hbits k hk]

/-- A byte's bits, bit 0 first, are those of the bit-reversed byte, bit 7 first. -/
theorem bitsMsbFirst_reverse (b : U8) : bitsMsbFirst b.reverse = bitsLsbFirst b := by
  simp [bitsMsbFirst, bitsLsbFirst, BitVec.getElem_reverse, BitVec.getMsbD]

/-- The divider on the bit-reversed register is the CRC-32 bit step, bit-reversed. -/
theorem crc32Params_divide_reverse (c : U32) (d : Bool) :
    crc32Params.divide c.reverse d = (c32Bit c d).reverse := by
  have hpoly : (if xor (c.getLsbD 0) d then Config.crc32PolyR else 0#32).reverse =
      if xor (c.getLsbD 0) d then Config.crc32Poly else 0#32 := by
    rw [apply_ite BitVec.reverse, crc32PolyR_reverse, BitVec.reverse_eq_zero_iff.2 rfl]
  rw [CrcParams.divide, c32Bit, reverse_xor, reverse_ushiftRight_one, hpoly, BitVec.msb_reverse]
  rfl

/-- The same for a byte, which the parameter list reflects. -/
theorem crc32Params_divideByte_reverse (c : U32) (b : U8) :
    crc32Params.divideByte c.reverse b = (c32Byte c b).reverse := by
  have hbits : bitsMsbFirst (reflectIf crc32Params.reflect b) = bitsLsbFirst b := bitsMsbFirst_reverse b
  rw [CrcParams.divideByte, hbits]
  exact List.foldl_hom BitVec.reverse crc32Params_divide_reverse

/-- The CRC-32 unit's function is the one its parameter list names. -/
theorem crc32Params_crc (data : List U8) (i : U32) : crc32Params.crc data i = crc32 data i := by
  have hfold : data.foldl crc32Params.divideByte i.reverse = (crc32 data i).reverse :=
    List.foldl_hom BitVec.reverse crc32Params_divideByte_reverse
  calc crc32Params.crc data i
      = (data.foldl crc32Params.divideByte i.reverse).reverse ^^^ 0#32 := rfl
    _ = crc32 data i := by rw [hfold, BitVec.reverse_reverse_eq, BitVec.xor_zero]

/-- Settles O35: the CRC-16 unit is the divider itself, and bit reversal carries the divider's run to the CRC-32
unit's, bit by bit and byte by byte. -/
theorem unitsComputeTheParameterLists : Obligations.UnitsComputeTheParameterLists :=
  ⟨crc16Params_crc, crc32Params_crc, rfl, rfl⟩

end Sys2Proof.Machine
end

section
/-! PROOFS. The state (10_state.md): the registers as 113 bits (rule R10), what a command's effect depends on, what one
step leaves of the presented words and of the index (rules R18, R21, R43), and the state after reset (rule R24). -/

namespace Sys2Proof.Machine

/-! ### One step, from what it answered -/

/-- A step that answers a next state holds the state or performs one command. -/
theorem step_next_cases {s t : State} (h : step s = .next t) :
    t = s ∨ ∃ w i, s.cmds[s.ci]? = some w ∧ decode w = .ok i ∧ t = (s.afterInstr i).advanceCi := by
  obtain ⟨f, -, hs⟩ | ⟨-, -, hs⟩ | ⟨w, i, -, hw, hd, hs⟩ | ⟨w, e, -, -, -, hs⟩ := step_cases s
  · simp [hs] at h
  · exact .inl (by simpa [hs] using h.symm)
  · exact .inr ⟨w, i, hw, hd, by simpa [hs] using h.symm⟩
  · simp [hs] at h

/-- After a step the block is in the next state it answered, or in the same state with the fault recorded. -/
theorem stateAfter_cases (s : State) :
    step s = .next (stateAfter s) ∨ ∃ f, step s = .fault f ∧ stateAfter s = s.recordFault f := by
  obtain ⟨f, -, hs⟩ | ⟨-, -, hs⟩ | ⟨w, i, -, -, -, hs⟩ | ⟨w, e, -, -, -, hs⟩ := step_cases s
  · exact .inr ⟨f, hs, by simp [stateAfter, hs]⟩
  · exact .inl (by simp [stateAfter, hs])
  · exact .inl (by simp [stateAfter, hs])
  · exact .inr ⟨.illegalCommand w s.ci, hs, by simp [stateAfter, hs]⟩

/-! ### The presented words and the index (rules R18, R43) -/

/-- No step changes a word the host has presented. -/
@[simp] theorem stateAfter_cmds (s : State) : (stateAfter s).cmds = s.cmds := by
  obtain hs | ⟨f, -, hs⟩ := stateAfter_cases s
  · obtain h | ⟨w, i, -, -, h⟩ := step_next_cases hs
    · rw [h]
    · rw [h, State.advanceCi_cmds, State.afterInstr_cmds]
  · rw [hs, State.recordFault_cmds]

/-- A step moves the index past a word of the list only. -/
theorem State.IndexInList.after_step {s t : State} (hs : s.IndexInList) (h : step s = .next t) : t.IndexInList := by
  obtain rfl | ⟨w, i, hw, -, rfl⟩ := step_next_cases h
  · exact hs
  · obtain ⟨hlt, -⟩ := List.getElem?_eq_some_iff.1 hw
    simpa [State.IndexInList] using hlt

/-- Every act of the host keeps the index within the list: presenting lengthens the list, and reset empties it with the
index at 0. -/
theorem State.IndexInList.after_act {s : State} (hs : s.IndexInList) (a : HostAct) : (s.act a).IndexInList := by
  cases a with
  | present ws =>
    have hlen : s.cmds.length ≤ (s.cmds ++ ws).length := by simp
    exact Nat.le_trans hs hlen
  | perform =>
    show (stateAfter s).IndexInList
    obtain h | ⟨f, -, h⟩ := stateAfter_cases s
    · exact hs.after_step h
    · rw [h]
      exact hs
  | reset => exact Nat.le_refl 0

/-- Settles O21: the invariant holds after a step and after an act, hence after every list of acts. -/
theorem indexStaysInList : Obligations.IndexStaysInList :=
  fun _ hs => ⟨fun _ h => hs.after_step h, acts_induction (fun _ a h => h.after_act a) hs⟩

/-! ### The registers as 113 bits (rule R10) -/

/-- `MODE` is read back from its bit. -/
@[simp] theorem Mode.ofBit_toBit (m : Mode) : Mode.ofBit m.toBit = m := by
  cases m <;> rfl

/-- Every bit is the bit of the mode it stands for. -/
@[simp] theorem Mode.toBit_ofBit (b : BitVec 1) : (Mode.ofBit b).toBit = b := by
  obtain rfl | rfl := BitVec.eq_zero_or_eq_one b <;> rfl

/-! Each register is read back from its place: the registers below it are passed over one by one. -/

@[simp] theorem Registers.pack_addr (r : Registers) : r.pack.extractLsb' 0 32 = r.addr :=
  BitVec.extractLsb'_append_eq_right

@[simp] theorem Registers.pack_mode (r : Registers) : r.pack.extractLsb' 32 1 = r.mode.toBit := by
  unfold Registers.pack
  rw [BitVec.extractLsb'_append_eq_of_le (by decide)]
  exact BitVec.extractLsb'_append_eq_right

@[simp] theorem Registers.pack_lfsr (r : Registers) : r.pack.extractLsb' 33 16 = r.lfsr := by
  unfold Registers.pack
  iterate 2 rw [BitVec.extractLsb'_append_eq_of_le (by decide)]
  exact BitVec.extractLsb'_append_eq_right

@[simp] theorem Registers.pack_key (r : Registers) : r.pack.extractLsb' 49 16 = r.key := by
  unfold Registers.pack
  iterate 3 rw [BitVec.extractLsb'_append_eq_of_le (by decide)]
  exact BitVec.extractLsb'_append_eq_right

@[simp] theorem Registers.pack_c32 (r : Registers) : r.pack.extractLsb' 65 32 = r.c32 := by
  unfold Registers.pack
  iterate 4 rw [BitVec.extractLsb'_append_eq_of_le (by decide)]
  exact BitVec.extractLsb'_append_eq_right

@[simp] theorem Registers.pack_c16 (r : Registers) : r.pack.extractLsb' 97 16 = r.c16 := by
  unfold Registers.pack
  iterate 4 rw [BitVec.extractLsb'_append_eq_of_le (by decide)]
  exact BitVec.extractLsb'_append_eq_left

/-- The 113 bits hold every register: none is lost. -/
theorem Registers.unpack_pack (r : Registers) : Registers.unpack r.pack = r := by
  simp [Registers.unpack]

/-- The registers hold every one of the 113 bits: neighbouring places join, down to bit 0. -/
theorem Registers.pack_unpack (v : BitVec 113) : (Registers.unpack v).pack = v := by
  simp only [Registers.pack, Registers.unpack, Mode.toBit_ofBit]
  iterate 5 rw [BitVec.extractLsb'_append_extractLsb'_eq_extractLsb' (by rfl)]
  exact BitVec.extractLsb'_eq_self

/-! ### What a command's effect depends on (rules R10, R21) -/

/-- Two states have the same registers exactly when the six agree. -/
theorem State.registers_eq_iff {s t : State} :
    s.registers = t.registers ↔
      s.c16 = t.c16 ∧ s.c32 = t.c32 ∧ s.key = t.key ∧ s.lfsr = t.lfsr ∧ s.mode = t.mode ∧ s.addr = t.addr := by
  simp [State.registers]

/-- The registers after a command, and what it emits, depend on the registers before it alone: its own unit's by that
unit's dependence lemma, the others because it leaves them. -/
theorem State.afterInstr_registers_congr {s t : State} (i : Instr) (h : s.registers = t.registers) :
    (s.afterInstr i).registers = (t.afterInstr i).registers ∧ s.emitted i = t.emitted i := by
  rw [State.registers_eq_iff] at h ⊢
  obtain ⟨hc16, hc32, hkey, hlfsr, hmode, haddr⟩ := h
  cases hu : i.unit with
  | crc16 =>
    have hown := State.afterInstr_crc16_congr hu hc16
    simp [State.afterInstr_c32_of_unit_ne, State.afterInstr_cipher_of_unit_ne, *]
  | crc32 =>
    have hown := State.afterInstr_crc32_congr hu hc32
    simp [State.afterInstr_c16_of_unit_ne, State.afterInstr_cipher_of_unit_ne, *]
  | cipher =>
    have hown := State.afterInstr_cipher_congr hu hkey hlfsr hmode haddr
    simp [State.afterInstr_c16_of_unit_ne, State.afterInstr_c32_of_unit_ne, *]

/-- An act at one place leaves the state at every other place as it was. -/
theorem actOn_getElem?_of_ne (sys : Instances) {j k : Nat} (a : HostAct) (h : j ≠ k) :
    (actOn sys k a)[j]? = sys[j]? := by
  simp [actOn, h.symm]

/-- Settles O18: packing and unpacking are inverse, and a command's effect depends on the registers alone. -/
theorem registersAreTheWholeState : Obligations.RegistersAreTheWholeState := by
  refine ⟨Registers.unpack_pack, Registers.pack_unpack, fun i s t h => ?_,
    fun sys _ _ a h => actOn_getElem?_of_ne sys a h⟩
  obtain ⟨hregs, hemit⟩ := State.afterInstr_registers_congr i h
  obtain ⟨evs, hs, ht⟩ := State.afterInstr_events_of_emitted_eq hemit
  exact ⟨s.afterInstr i, t.afterInstr i, evs, exec_eq i s, exec_eq i t, hregs, hs, ht⟩

/-- Settles O20: every command appends what `State.emitted` says, its registers do not depend on the history, and no
step changes the list of words. -/
theorem resultPortAndPresentedWords : Obligations.ResultPortAndPresentedWords := by
  refine ⟨fun i s => ⟨s.afterInstr i, exec_eq i s, s.afterInstr_cmds i, ?_⟩,
    fun i s history => ⟨s.afterInstr i, _, exec_eq i s, exec_eq i _, ?_⟩, stateAfter_cmds⟩
  · rw [State.afterInstr_events]
    cases i <;> rfl
  · obtain ⟨hregs, -⟩ := State.afterInstr_registers_congr (s := { s with events := history }) (t := s) i rfl
    exact hregs

/-! ### The state after reset (rule R24) -/

/-- After reset the index is within the empty list. -/
theorem State.reset_indexInList : State.reset.IndexInList := Nat.le_refl 0

/-- After reset the mode is linear, so rule R113 asks nothing of `LFSR`. -/
theorem State.reset_sfcSynced : State.reset.SfcSynced := nofun

/-- Settles O17: the table's values are those of `State.reset`, and it meets both invariants. -/
theorem resetStateMeetsInvariants : Obligations.ResetStateMeetsInvariants :=
  ⟨rfl, rfl, rfl, rfl, rfl, rfl, rfl, rfl, State.reset_indexInList, State.reset_sfcSynced⟩

end Sys2Proof.Machine
end

section
/-! PROOFS. Several instances (20_memory.md rule R45, 60_exceptions.md rule R139): one act on the instances, and any
interleaving of acts. -/

namespace Sys2Proof.Machine

/-- An act at a place takes the instance there, if there is one, through that act. -/
theorem actOn_getElem?_self (sys : Instances) (k : Nat) (a : HostAct) :
    (actOn sys k a)[k]? = sys[k]?.map (fun s => s.act a) :=
  List.getElem?_modify_eq _ k sys

/-- An act on the instance at a place is the first of that instance's own acts. -/
theorem actsFor_cons_self (k : Nat) (a : HostAct) (as : List (Nat × HostAct)) :
    actsFor k ((k, a) :: as) = a :: actsFor k as := by
  simp [actsFor]

/-- An act on the instance at another place is none of that instance's own acts. -/
theorem actsFor_cons_of_ne {j k : Nat} (a : HostAct) (as : List (Nat × HostAct)) (h : k ≠ j) :
    actsFor k ((j, a) :: as) = actsFor k as := by
  simp [actsFor, h.symm]

/-- Settles O25, by induction on the interleaving from any instances: its first act is on the instance at `k`, and is
the first of that instance's own acts, or it is on another, and leaves the one at `k` as it was. -/
theorem instancesShareNothing : Obligations.InstancesShareNothing := by
  intro sys as k
  induction as generalizing sys with
  | nil => exact Option.map_id'.symm
  | cons p as ih =>
    obtain ⟨j, a⟩ := p
    have hrest : (interleave sys ((j, a) :: as))[k]? =
        (actOn sys j a)[k]?.map (fun s => s.acts (actsFor k as)) := ih (actOn sys j a)
    by_cases hjk : k = j
    · subst hjk
      rw [hrest, actOn_getElem?_self, actsFor_cons_self, Option.map_map]
      rfl
    · rw [hrest, actOn_getElem?_of_ne sys a hjk, actsFor_cons_of_ne a as hjk]

end Sys2Proof.Machine
end

section
/-! PROOFS. The command word (30_encoding.md rules R50 to R55): its fields against a format's must-be-zero bits, what
the decoder answers for each word, and rule R54's table, whose rows are made of the same opcodes and formats. -/

namespace Sys2Proof

/-! ### The argument's must-be-zero bits (rule R51) -/

/-- A mask of ones above `k` bits keeps nothing exactly when the bits above are zero. -/
theorem and_highMask_eq_zero_iff {m k : Nat} (x : BitVec (m + k)) :
    x &&& (BitVec.allOnes m ++ 0#k) = 0#(m + k) ↔ x.extractLsb' k m = 0#m := by
  have hx : x.extractLsb' k m ++ x.extractLsb' 0 k = x :=
    (BitVec.extractLsb'_append_extractLsb'_eq_extractLsb' (by simp)).trans BitVec.extractLsb'_eq_self
  constructor
  · intro h
    have hhigh := congrArg (BitVec.extractLsb' k m) h
    rwa [BitVec.extractLsb'_and, BitVec.extractLsb'_append_eq_left, BitVec.and_allOnes,
      BitVec.extractLsb'_zero] at hhigh
  · intro h
    rw [← hx, h, BitVec.and_append, BitVec.and_zero, BitVec.zero_and, BitVec.zero_append_zero]

/-- Format N: the whole argument is zero. -/
theorem mustBeZero_N_iff (arg : U32) : arg &&& Format.mustBeZero .N = 0#32 ↔ arg = 0#32 := by
  rw [show Format.mustBeZero .N = BitVec.allOnes 32 from rfl, BitVec.and_allOnes]

/-- Format B: bits 31 to 8 are zero. -/
theorem mustBeZero_B_iff (arg : U32) :
    arg &&& Format.mustBeZero .B = 0#32 ↔ arg.extractLsb' 8 24 = 0#24 :=
  and_highMask_eq_zero_iff (m := 24) (k := 8) arg

/-- Format H: bits 31 to 16 are zero. -/
theorem mustBeZero_H_iff (arg : U32) :
    arg &&& Format.mustBeZero .H = 0#32 ↔ arg.extractLsb' 16 16 = 0#16 :=
  and_highMask_eq_zero_iff (m := 16) (k := 16) arg

/-- Format W: no bit must be zero. -/
theorem mustBeZero_W (arg : U32) : arg &&& Format.mustBeZero .W = 0#32 := BitVec.and_zero

/-! ### Formats with and without an operand (rule R51) -/

/-- Only format N has no operand. -/
theorem Format.eq_N_of_operandBits {f : Format} (h : f.operandBits = none) : f = .N := by
  cases f with
  | N => rfl
  | _ => cases h

/-- An operand's width is a whole number of hexadecimal digits. -/
theorem Format.operandBits_hex {f : Format} {n : Nat} (h : f.operandBits = some n) :
    n / 4 ≠ 0 ∧ 16 ^ (n / 4) = 2 ^ n := by
  cases f with
  | N => cases h
  | B | H | W => cases h; decide

/-! ### What the decoder answers (rules R50, R53, R54) -/

@[simp] theorem Mnemonic.build_mnemonic (m : Mnemonic) (arg : U32) : (m.build arg).mnemonic = m := by
  cases m <;> rfl

/-- No two mnemonics share an opcode. -/
theorem Mnemonic.opcode_inj {m m' : Mnemonic} : m.opcode = m'.opcode ↔ m = m' := by
  refine ⟨fun h => ?_, fun h => h ▸ rfl⟩
  have hsome : some m = some m' := by rw [← mnemonicOf_opcode m, h, mnemonicOf_opcode]
  exact Option.some.inj hsome

/-- An opcode is mapped to a mnemonic exactly when it is that mnemonic's. -/
theorem mnemonicOf_eq_some_iff {op : U8} {m : Mnemonic} : mnemonicOf op = some m ↔ op = m.opcode :=
  ⟨fun h => (opcode_of_mnemonicOf h).symm, fun h => h ▸ mnemonicOf_opcode m⟩

/-- A word decodes to a command exactly when its opcode is the command's, the bits that must be zero are, and the
operand is the argument's. -/
theorem decode_ok_iff_fields {w : CommandWord} {i : Instr} :
    decode w = .ok i ↔ opField w = i.mnemonic.opcode ∧
      argField w &&& i.mnemonic.format.mustBeZero = 0#32 ∧ i = i.mnemonic.build (argField w) := by
  simp only [decode_ok_iff, mnemonicOf_eq_some_iff]
  constructor
  · rintro ⟨m, hop, hz, rfl⟩
    rw [Mnemonic.build_mnemonic]
    exact ⟨hop, hz, rfl⟩
  · rintro ⟨hop, hz, hi⟩
    exact ⟨i.mnemonic, hop, hz, hi.symm⟩

/-- A word decodes to some command exactly when it has a row's opcode and that row's must-be-zero bits are zero. -/
theorem exists_decode_ok_iff {w : CommandWord} :
    (∃ i, decode w = .ok i) ↔ ∃ m : Mnemonic, opField w = m.opcode ∧ argField w &&& m.format.mustBeZero = 0#32 := by
  simp only [decode_ok_iff, mnemonicOf_eq_some_iff]
  exact ⟨fun ⟨_, m, hop, hz, _⟩ => ⟨m, hop, hz⟩, fun ⟨m, hop, hz⟩ => ⟨_, m, hop, hz, rfl⟩⟩

/-- A word is refused exactly when it decodes to no command. -/
theorem exists_decode_error_iff {w : CommandWord} : (∃ e, decode w = .error e) ↔ ¬ ∃ i, decode w = .ok i := by
  cases h : decode w <;> simp

/-- Above its own width a widened operand has no bit set. -/
theorem setWidth_extractLsb'_high {n : Nat} (imm : BitVec n) (len : Nat) :
    (imm.setWidth 32).extractLsb' n len = 0#len := by
  apply BitVec.eq_of_getLsbD_eq
  intro k hk
  simp [BitVec.getLsbD_setWidth]

@[simp] theorem imm8Of_setWidth (imm : U8) : imm8Of (imm.setWidth 32) = imm :=
  (BitVec.extractLsb'_setWidth_of_le (by decide)).trans BitVec.extractLsb'_eq_self

@[simp] theorem imm16Of_setWidth (imm : U16) : imm16Of (imm.setWidth 32) = imm :=
  (BitVec.extractLsb'_setWidth_of_le (by decide)).trans BitVec.extractLsb'_eq_self

/-- The argument of a command's word keeps its format's must-be-zero bits zero. -/
theorem Instr.argument_fits (i : Instr) : i.argument &&& i.mnemonic.format.mustBeZero = 0#32 := by
  cases i with
  | c16Rd | c32Rd | ciLin => rfl
  | c16B b | c32B b | ciB b => exact (mustBeZero_B_iff _).2 (setWidth_extractLsb'_high b 24)
  | c16Ld v | ciKey v => exact (mustBeZero_H_iff _).2 (setWidth_extractLsb'_high v 16)
  | c32Ld v | ciSfc v => exact mustBeZero_W v

/-- A command is read back from its argument. -/
@[simp] theorem Instr.build_argument (i : Instr) : i.mnemonic.build i.argument = i := by
  cases i <;> simp [Instr.mnemonic, Instr.argument, Mnemonic.build, imm32Of]

/-- The argument of a command's word is a number of the operand's width. -/
theorem Instr.argument_lt {i : Instr} {n : Nat} (h : i.mnemonic.format.operandBits = some n) :
    i.argument.toNat < 2 ^ n := by
  cases i with
  | c16Rd | c32Rd | ciLin => cases h
  | c32Ld v | ciSfc v => cases h; exact v.isLt
  | c16B b | c32B b | ciB b | c16Ld b | ciKey b =>
    cases h
    rw [Instr.argument, BitVec.toNat_setWidth_of_le (by decide)]
    exact b.isLt

/-- Decoding the word of a command gives the command back. -/
theorem decode_encode (i : Instr) : decode (encode i) = .ok i := by
  rw [encode, decode_commandWord _ _ i.argument_fits, i.build_argument]

/-! ### The fields as bits of the word (rules R50, R53) -/

/-- A word's argument bits are the word's own. -/
theorem argField_extractLsb' (w : CommandWord) {start len : Nat} (h : start + len ≤ 32) :
    (argField w).extractLsb' start len = w.extractLsb' start len :=
  BitVec.extractLsb'_extractLsb'_of_le h

/-- Settles O5: for each command the decoder's three conditions (opcode, must-be-zero bits, operand) are read as bits of
the argument by the format's lemma, and from there as bits of the word. -/
theorem decodedOperandsAreArgumentBits : Obligations.DecodedOperandsAreArgumentBits := by
  intro w
  -- each command's opcode, format and operand
  simp only [decode_ok_iff_fields, Instr.mnemonic, Mnemonic.opcode, Mnemonic.format, Mnemonic.build,
    Instr.c16Ld.injEq, Instr.c16B.injEq, Instr.c32Ld.injEq, Instr.c32B.injEq, Instr.ciKey.injEq, Instr.ciSfc.injEq,
    Instr.ciB.injEq]
  -- each format's must-be-zero bits
  simp only [mustBeZero_N_iff, mustBeZero_B_iff, mustBeZero_H_iff, mustBeZero_W, and_true, true_and]
  -- bits of the argument as bits of the word
  simp (disch := decide) only [imm8Of, imm16Of, imm32Of, argField_extractLsb']
  simp only [opField, argField, implies_true, and_self]

/-! ### Rule R54's table -/

/-- The row of rule R54's table that a mnemonic's opcode and format make. -/
def Mnemonic.row (m : Mnemonic) : TableRow :=
  ⟨m, m.opcode, m.format, commandWord m.opcode 0#32, commandWord 0xFF#8 m.format.mustBeZero⟩

/-- The table as the spec prints it is the rows of the ten mnemonics. -/
theorem opcodeTable_eq : opcodeTable = Mnemonic.all.map Mnemonic.row := by decide

/-- A word's opcode and argument are its own. -/
theorem commandWord_inj {op op' : U8} {arg arg' : U32} :
    commandWord op arg = commandWord op' arg' ↔ op = op' ∧ arg = arg' := by
  refine ⟨fun h => ⟨?_, ?_⟩, fun ⟨hop, harg⟩ => hop ▸ harg ▸ rfl⟩
  · simpa using congrArg opField h
  · simpa using congrArg argField h

/-- A mask works on the opcode and on the argument apart. -/
theorem commandWord_and (op op' : U8) (arg arg' : U32) :
    commandWord op arg &&& commandWord op' arg' = commandWord (op &&& op') (arg &&& arg') :=
  BitVec.and_append

/-- A row holds for a word exactly when the word has the row's opcode and its must-be-zero bits are zero. -/
theorem Mnemonic.row_holdsFor (m : Mnemonic) (w : CommandWord) :
    m.row.holdsFor w = true ↔ opField w = m.opcode ∧ argField w &&& m.format.mustBeZero = 0#32 := by
  have hmask : w &&& m.row.mask = commandWord (opField w) (argField w &&& m.format.mustBeZero) := by
    have hop : opField w &&& 0xFF#8 = opField w := BitVec.and_allOnes
    calc w &&& m.row.mask
        = commandWord (opField w) (argField w) &&& commandWord 0xFF#8 m.format.mustBeZero := by
          rw [commandWord_fields]; rfl
      _ = commandWord (opField w) (argField w &&& m.format.mustBeZero) := by rw [commandWord_and, hop]
  rw [TableRow.holdsFor, beq_iff_eq, hmask]
  exact commandWord_inj

/-- A word that decodes matches one row, its command's: no other row has its opcode. -/
theorem matchingRows_of_ok {w : CommandWord} {i : Instr} (h : decode w = .ok i) :
    matchingRows w = [i.mnemonic.row] := by
  obtain ⟨hop, hz, -⟩ := decode_ok_iff_fields.1 h
  have hrow : ∀ m : Mnemonic, m.row.holdsFor w = (m == i.mnemonic) := fun m => by
    rw [Bool.eq_iff_iff, Mnemonic.row_holdsFor, hop, beq_iff_eq]
    exact ⟨fun ⟨h, _⟩ => (Mnemonic.opcode_inj.1 h).symm, by rintro rfl; exact ⟨rfl, hz⟩⟩
  have hone : Mnemonic.all.filter (· == i.mnemonic) = [i.mnemonic] := by cases i <;> rfl
  simp only [matchingRows, opcodeTable_eq, List.filter_map, Function.comp_def, hrow, hone, List.map_singleton]

/-- A word that is refused matches no row. -/
theorem matchingRows_of_error {w : CommandWord} {e : DecodeError} (h : decode w = .error e) :
    matchingRows w = [] := by
  have hno := exists_decode_error_iff.1 ⟨e, h⟩
  rw [matchingRows, opcodeTable_eq, List.filter_eq_nil_iff]
  intro r hr hholds
  obtain ⟨m, -, rfl⟩ := List.mem_map.1 hr
  exact hno (exists_decode_ok_iff.2 ⟨m, (m.row_holdsFor w).1 hholds⟩)

/-- A legal word (rule R54) is one that decodes. -/
theorem legalWord_iff {w : CommandWord} : legalWord w = true ↔ ∃ i, decode w = .ok i := by
  cases h : decode w with
  | ok i => simp [legalWord, matchingRows_of_ok h]
  | error e => simp [legalWord, matchingRows_of_error h]

/-- Settles O3: a word that decodes matches its command's row alone, a word that does not decode matches none. -/
theorem wordLegalIffExactlyOneTableRow : Obligations.WordLegalIffExactlyOneTableRow := by
  refine fun w => ⟨?_, legalWord_iff.symm, fun i hi => ?_, fun hw s hf hfetch => ?_⟩
  · cases h : decode w with
    | ok i => rw [matchingRows_of_ok h]; exact Nat.le_refl 1
    | error e => rw [matchingRows_of_error h]; exact Nat.zero_le 1
  · obtain ⟨hop, -, -⟩ := decode_ok_iff_fields.1 hi
    exact ⟨i.mnemonic.row, matchingRows_of_ok hi, rfl, hop.symm, rfl⟩
  · have hno : ¬ ∃ i, decode w = .ok i := fun hok => by simp [legalWord_iff.2 hok] at hw
    obtain ⟨e, he⟩ := exists_decode_error_iff.2 hno
    exact Machine.step_illegal hf hfetch he

/-! ### The illegal words (rule R55) -/

/-- The opcodes in no row (rule R55). -/
theorem mnemonicOf_eq_none_iff {op : U8} : mnemonicOf op = none ↔
    op.toNat ≤ 0x0F ∨ (0x13 ≤ op.toNat ∧ op.toNat ≤ 0x1F) ∨ (0x23 ≤ op.toNat ∧ op.toNat ≤ 0x2F) ∨
      0x34 ≤ op.toNat := by
  simp only [mnemonicOf, Mnemonic.all, Mnemonic.opcode, List.find?_eq_none, List.forall_mem_cons, beq_iff_eq,
    ← BitVec.toNat_inj, List.not_mem_nil, false_implies, implies_true, and_true, BitVec.toNat_ofNat]
  omega

/-- 246 opcode values are in no row: the ten rows have ten of the 256. -/
theorem length_filter_unknownOpcode :
    ((List.range 256).filter (fun n => (mnemonicOf (BitVec.ofNat 8 n)).isNone)).length = 246 := by
  decide +kernel

/-- Settles O4: an opcode in no row decodes to nothing, and an opcode of a row does exactly where its format's
must-be-zero bits are zero. -/
theorem illegalWordsAreTheListedOnes : Obligations.IllegalWordsAreTheListedOnes := by
  refine ⟨fun w => ?_, length_filter_unknownOpcode, ⟨.unknownOpcode 0x00#8, by decide⟩,
    ⟨.unknownOpcode 0xFF#8, by decide⟩, fun w e s he hf hfetch => Machine.step_illegal hf hfetch he⟩
  rw [← mnemonicOf_eq_none_iff, exists_decode_error_iff, exists_decode_ok_iff]
  cases h : mnemonicOf (opField w) with
  | none =>
    have hno : ∀ m : Mnemonic, opField w ≠ m.opcode := fun m hop => by simp [mnemonicOf_eq_some_iff.2 hop] at h
    simp [hno]
  | some m =>
    simp only [mnemonicOf_eq_some_iff.1 h, Mnemonic.opcode_inj]
    cases m <;>
      simp [Mnemonic.format, Mnemonic.opcode, mustBeZero_N_iff, mustBeZero_B_iff, mustBeZero_H_iff, mustBeZero_W]

end Sys2Proof
end

section
/-! PROOFS. Command lists as bytes (30_encoding.md rule R52): one word's 5 bytes, then the list. -/

namespace Sys2Proof

/-- Four bytes of an argument, little-endian, are the argument. -/
theorem leWord32_bytes (arg : U32) :
    leWord32 (arg.extractLsb' 0 8) (arg.extractLsb' 8 8) (arg.extractLsb' 16 8) (arg.extractLsb' 24 8) = arg := by
  unfold leWord32
  iterate 3 rw [BitVec.extractLsb'_append_extractLsb'_eq_extractLsb' (by rfl)]
  exact BitVec.extractLsb'_eq_self

/-- A word is read back from its 5 bytes. -/
theorem wordOfBytes_wordBytes (w : CommandWord) :
    wordOfBytes (opField w) ((argField w).extractLsb' 0 8) ((argField w).extractLsb' 8 8)
      ((argField w).extractLsb' 16 8) ((argField w).extractLsb' 24 8) = w := by
  rw [wordOfBytes, leWord32_bytes, commandWord_fields]

/-- The 5 bytes are the word's opcode and then its argument, lowest byte first. -/
theorem wordBytes_eq (w : CommandWord) : wordBytes w =
    [w.extractLsb' 32 8, w.extractLsb' 0 8, w.extractLsb' 8 8, w.extractLsb' 16 8, w.extractLsb' 24 8] := by
  simp (disch := decide) only [wordBytes, opField, argField_extractLsb']

@[simp] theorem serialise_nil : serialise [] = [] := rfl

@[simp] theorem serialise_cons (w : CommandWord) (ws : List CommandWord) :
    serialise (w :: ws) = wordBytes w ++ serialise ws := List.flatMap_cons

@[simp] theorem length_wordBytes (w : CommandWord) : (wordBytes w).length = 5 := rfl

/-- A list of `n` words is `5n` bytes. -/
theorem length_serialise (ws : List CommandWord) : (serialise ws).length = 5 * ws.length := by
  induction ws with
  | nil => rfl
  | cons w ws ih => rw [serialise_cons, List.length_append, length_wordBytes, ih, List.length_cons]; omega

/-- Reading the first word of a byte list. -/
theorem deserialise_wordBytes_append (w : CommandWord) (bytes : List U8) :
    deserialise (wordBytes w ++ bytes) = (deserialise bytes).map (w :: ·) := by
  simp [wordBytes, deserialise, wordOfBytes_wordBytes]

/-- Reading the bytes of a list back gives its words. -/
theorem deserialise_serialise (ws : List CommandWord) : deserialise (serialise ws) = some ws := by
  induction ws with
  | nil => rfl
  | cons w ws ih => rw [serialise_cons, deserialise_wordBytes_append, ih, Option.map_some]

/-- Word `k` stands at byte offset `5k`. -/
theorem serialise_word_at {ws : List CommandWord} {k : Nat} {w : CommandWord} (h : ws[k]? = some w) :
    ((serialise ws).drop (5 * k)).take 5 = wordBytes w := by
  induction ws generalizing k with
  | nil => simp at h
  | cons v ws ih =>
    rw [serialise_cons]
    cases k with
    | zero =>
      obtain rfl : v = w := by simpa using h
      exact List.take_left' (length_wordBytes v)
    | succ k =>
      rw [Nat.mul_succ, Nat.add_comm, ← length_wordBytes v, List.drop_length_add_append]
      exact ih (by simpa using h)

/-- Decoding the bytes of a command gives it and the bytes after it. -/
theorem decodeBytes_encode (i : Instr) (rest : List U8) :
    decodeBytes (wordBytes (encode i) ++ rest) = .ok (i, rest) := by
  simp [wordBytes, decodeBytes, wordOfBytes_wordBytes, decode_encode]

/-- Settles O6: the list's length, its reading back and the place of word `k`, each by induction on the list, and a
command's own bytes. -/
theorem serialisedListRoundTrip : Obligations.SerialisedListRoundTrip :=
  ⟨fun ws => ⟨length_serialise ws, deserialise_serialise ws,
    fun _ w h => (serialise_word_at h).trans (wordBytes_eq w)⟩, decodeBytes_encode⟩

end Sys2Proof
end

section
/-! PROOFS. Steps and runs (30_encoding.md rules R59, R60; 60_exceptions.md rule R130): one step at a legal word, the
run of a command list wherever it stands, how a run ends, and the states from which no run stops. -/

namespace Sys2Proof.Machine

/-- Settles O10: the command's outcome and the step's, both exact. -/
theorem stepPerformsCommandAtIndex : Obligations.StepPerformsCommandAtIndex := by
  intro s w i hf hw hd
  refine ⟨s.afterInstr i, exec_eq i s, ?_⟩
  rw [step_legal hf hw hd, State.advanceCi, State.afterInstr_ci]

/-! ### The list and the index apart from the rest (rule R59) -/

/-- `s` with another list of words and another index. -/
def State.withList (s : State) (ws : List CommandWord) (n : Nat) : State := { s with cmds := ws, ci := n }

@[simp] theorem State.withList_cmds (s : State) (ws : List CommandWord) (n : Nat) : (s.withList ws n).cmds = ws := rfl
@[simp] theorem State.withList_ci (s : State) (ws : List CommandWord) (n : Nat) : (s.withList ws n).ci = n := rfl
@[simp] theorem State.withList_fault (s : State) (ws : List CommandWord) (n : Nat) :
    (s.withList ws n).fault = s.fault := rfl

/-- The next index in the same list. -/
theorem State.advanceCi_withList (s : State) (ws : List CommandWord) (n : Nat) :
    (s.withList ws n).advanceCi = s.withList ws (n + 1) := rfl

/-- The effect of a command depends neither on the list nor on the index. -/
theorem State.afterInstr_withList (s : State) (ws : List CommandWord) (n : Nat) (i : Instr) :
    (s.withList ws n).afterInstr i = (s.afterInstr i).withList ws n := by
  cases i with
  | ciB b =>
    cases h : s.mode with
    | lin => rw [State.afterInstr_ciB_lin b h, State.afterInstr_ciB_lin (s := s.withList ws n) b h]; rfl
    | sfc => rw [State.afterInstr_ciB_sfc b h, State.afterInstr_ciB_sfc (s := s.withList ws n) b h]; rfl
  | _ => rfl

/-- No command list touches the list of words. -/
@[simp] theorem foldl_afterInstr_cmds (is : List Instr) (s : State) :
    (is.foldl State.afterInstr s).cmds = s.cmds :=
  List.foldlRecOn is _ (motive := fun t : State => t.cmds = s.cmds) rfl
    fun t ht i _ => (t.afterInstr_cmds i).trans ht

/-- No command list touches the recorded fault. -/
@[simp] theorem foldl_afterInstr_fault (is : List Instr) (s : State) :
    (is.foldl State.afterInstr s).fault = s.fault :=
  List.foldlRecOn is _ (motive := fun t : State => t.fault = s.fault) rfl
    fun t ht i _ => (t.afterInstr_fault i).trans ht

/-! ### The run of a command list (rules R59, R60) -/

/-- A run performs a command list, wherever it stands among the words, and goes on from its end. -/
theorem run_encodeAll (is : List Instr) {s : State} (before after : List CommandWord) (hf : s.fault = none) (k : Nat) :
    Host.Core.run Sys2Proof.core (is.length + k) (s.withList (before ++ (encodeAll is ++ after)) before.length) =
      Host.Core.run Sys2Proof.core k ((is.foldl State.afterInstr s).withList (before ++ (encodeAll is ++ after))
        (before.length + is.length)) := by
  induction is generalizing s before with
  | nil => rw [List.length_nil, Nat.zero_add]; rfl
  | cons i is ih =>
    have hword : (before ++ (encodeAll (i :: is) ++ after))[before.length]? = some (encode i) := by simp [encodeAll]
    have hstep : step (s.withList (before ++ (encodeAll (i :: is) ++ after)) before.length) =
        .next ((s.afterInstr i).withList (before ++ (encodeAll (i :: is) ++ after)) (before.length + 1)) := by
      rw [step_legal (s := s.withList _ before.length) hf hword (decode_encode i), State.afterInstr_withList,
        State.advanceCi_withList]
    have hrest := ih (s := s.afterInstr i) (before ++ [encode i]) (by simpa using hf)
    rw [List.length_cons, Nat.add_right_comm, run_of_next hstep]
    simpa [encodeAll, Nat.add_assoc, Nat.add_comm 1] using hrest

/-- Settles O15: a command commutes with a change of list and index, and the run of the list, from its place on, is
its effect. -/
theorem listHasSameEffectWhereverItStands : Obligations.ListHasSameEffectWhereverItStands := by
  refine ⟨fun i s n ws => ⟨s.afterInstr i, exec_eq i s, ?_⟩, fun s before after is hf hcmds hci =>
    ⟨is.foldl State.afterInstr s, execAll_eq is s, ?_⟩⟩
  · exact (exec_eq i _).trans (congrArg _ (s.afterInstr_withList ws n i))
  · have hrun := run_encodeAll is before after hf 0
    rw [← hcmds, ← hci] at hrun
    rw [← hci]
    refine hrun.trans ?_
    rw [← foldl_afterInstr_cmds is s]
    rfl

/-- Settles O14: the list's commands are performed whatever words follow; with none the run is at its normal end, and
at an illegal one its next step is the fault. -/
theorem runEndsNormallyOrAtIllegalWord : Obligations.RunEndsNormallyOrAtIllegalWord := by
  intro s is hf
  have hrun (after : List CommandWord) (k : Nat) : runWords (is.length + k) (encodeAll is ++ after) s =
      Host.Core.run Sys2Proof.core k ((is.foldl State.afterInstr s).withList (encodeAll is ++ after) is.length) := by
    have h := run_encodeAll is [] after hf k
    rwa [List.length_nil, Nat.zero_add] at h
  have hlen : (encodeAll is).length = is.length := List.length_map _
  refine ⟨is.foldl State.afterInstr s, execAll_eq is s, ?_, ?_, ?_, fun w e rest he => ⟨hrun _ 0, ?_, fun n => ?_⟩⟩
  · have h := hrun [] 0
    rwa [List.append_nil] at h
  · simp [State.atNormalEnd, hlen, hf]
  · rintro rfl
    rfl
  · simp [State.atNormalEnd, hlen]
  · rw [Nat.add_assoc, hrun, Nat.add_comm]
    exact run_of_fault (step_illegal (by simpa using hf) (by simp [hlen]) he) n

/-! ### Safe states (rules R60, R130) -/

/-- A state is safe when no fault is recorded and every word from the index on decodes. -/
theorem State.safe_iff {s : State} : s.safe = true ↔
    s.fault = none ∧ ∀ k w, s.ci ≤ k → s.cmds[k]? = some w → ∃ i, decode w = .ok i := by
  have hdec (w : CommandWord) : decodable w = true ↔ ∃ i, decode w = .ok i := by
    cases h : decode w <;> simp [decodable, h, Except.toBool]
  simp only [State.safe, Bool.and_eq_true, Option.isNone_iff_eq_none, List.all_eq_true, hdec, List.mem_iff_getElem?,
    List.getElem?_drop]
  refine and_congr_right fun _ => ⟨fun h k w hk hw => h w ⟨k - s.ci, ?_⟩, fun h w ⟨j, hw⟩ => h _ w (by omega) hw⟩
  rwa [Nat.add_sub_cancel' hk]

/-- A safe state's step answers a safe state: it holds the state, or performs the next word and leaves the words after
it to be performed. -/
theorem State.step_of_safe {s : State} (h : s.safe = true) : ∃ t, step s = .next t ∧ t.safe = true := by
  obtain ⟨hfault, hwords⟩ := State.safe_iff.1 h
  obtain ⟨f, hf, -⟩ | ⟨-, -, hs⟩ | ⟨w, i, -, -, -, hs⟩ | ⟨w, e, -, hw, hd, -⟩ := step_cases s
  · simp [hfault] at hf
  · exact ⟨s, hs, h⟩
  · refine ⟨_, hs, State.safe_iff.2 ⟨by simpa using hfault, fun k v hk hv => hwords k v ?_ (by simpa using hv)⟩⟩
    have hci : s.ci + 1 ≤ k := by simpa using hk
    omega
  · obtain ⟨i, hi⟩ := hwords s.ci w (Nat.le_refl _) hw
    simp [hi] at hd

/-- No run from a safe state stops, and it leads to safe states only. -/
theorem State.run_of_safe {s : State} (h : s.safe = true) (n : Nat) :
    ∃ u, Host.Core.run Sys2Proof.core n s = .next u ∧ u.safe = true := by
  induction n generalizing s with
  | zero => exact ⟨s, rfl, h⟩
  | succ n ih =>
    obtain ⟨t, hs, ht⟩ := State.step_of_safe h
    obtain ⟨u, hu, hsafe⟩ := ih ht
    exact ⟨u, (run_of_next hs n).trans hu, hsafe⟩

/-- Settles O26: one step keeps safety and answers a next state, hence so does every run. -/
theorem safeStatesStaySafe : Obligations.SafeStatesStaySafe := by
  intro s hs
  obtain ⟨t, hstep, ht⟩ := State.step_of_safe hs
  exact ⟨t, hstep, ht, State.run_of_safe hs⟩

end Sys2Proof.Machine
end

section
/-! PROOFS. The assembler (30_encoding.md rules R57, R58; log entry 10): numbers as they are written, the words of a
line, the commands of a line's words, and texts of several lines. -/

namespace Sys2Proof.Machine

/-! ### Digits and literals -/

/-- The values of the low `n` hexadecimal digits of a number, most significant first. -/
def hexDigitValues : Nat → Nat → List Nat
  | 0, _ => []
  | n + 1, v => hexDigitValues n (v / 16) ++ [v % 16]

/-- The digits that are printed are those of these values. -/
theorem hexDigits_eq_map (n v : Nat) : hexDigits n v = (hexDigitValues n v).map hexDigit := by
  induction n generalizing v with
  | zero => rfl
  | succ n ih => simp [hexDigits, hexDigitValues, ih]

/-- There are `n` of them. -/
@[simp] theorem length_hexDigitValues (n v : Nat) : (hexDigitValues n v).length = n := by
  induction n generalizing v with
  | zero => rfl
  | succ n ih => simp [hexDigitValues, ih]

/-- Each of them is a digit's value. -/
theorem hexDigitValues_lt {n v d : Nat} (h : d ∈ hexDigitValues n v) : d < 16 := by
  induction n generalizing v with
  | zero => cases h
  | succ n ih =>
    obtain hd | hd : d ∈ hexDigitValues n (v / 16) ∨ d = v % 16 := by simpa [hexDigitValues] using h
    · exact ih hd
    · omega

/-- A number below `16 ^ n` is the value of its low `n` digits. -/
theorem foldl_hexDigitValues {n v : Nat} (h : v < 16 ^ n) :
    (hexDigitValues n v).foldl (fun u d => 16 * u + d) 0 = v := by
  induction n generalizing v with
  | zero => exact (Nat.lt_one_iff.1 h).symm
  | succ n ih =>
    have hhigh : v / 16 < 16 ^ n := by omega
    rw [hexDigitValues, List.foldl_append, ih hhigh]
    exact Nat.div_add_mod v 16

/-- A number of one digit or more has the value of its digits. -/
theorem digits_map_hexDigit {base : Nat} (hb : base ≤ 16) {ds : List Nat} (hne : ds ≠ []) (h : ∀ d ∈ ds, d < base) :
    digits base (ds.map hexDigit) = some (ds.foldl (fun v d => base * v + d) 0) := by
  rw [digits, if_neg (by simpa using hne), digitsFrom_hexDigit hb ds 0 h]

/-- A hexadecimal literal's value is that of its digits. -/
theorem literal_hex {ds : List Nat} (hne : ds ≠ []) (h : ∀ d ∈ ds, d < 16) :
    literal ('0' :: 'x' :: ds.map hexDigit) = some (ds.foldl (fun v d => 16 * v + d) 0) :=
  digits_map_hexDigit (Nat.le_refl 16) hne h

/-- A decimal literal's value is that of its digits: no digit is the `x` of a hexadecimal literal. -/
theorem literal_decimal {ds : List Nat} (hne : ds ≠ []) (h : ∀ d ∈ ds, d < 10) :
    literal (ds.map hexDigit) = some (ds.foldl (fun v d => 10 * v + d) 0) := by
  rw [← digits_map_hexDigit (by decide) hne h]
  unfold literal
  split
  · next hex hx =>
    obtain ⟨d, hd, hdx⟩ := List.mem_map.1 (show 'x' ∈ ds.map hexDigit by simp [hx])
    obtain ⟨-, -, -, hne_x⟩ := hexDigit_plain d (Nat.lt_trans (h d hd) (by decide))
    exact absurd hdx hne_x
  · rfl

/-- A byte is read back from its two hexadecimal digits (rule R58). -/
theorem hexByte_hexDigits (b : U8) : hexByte (hexDigits 2 b.toNat) = some b := by
  have hne : hexDigitValues 2 b.toNat ≠ [] := fun h => by simpa using congrArg List.length h
  rw [hexByte, hexDigits_eq_map, if_pos (by simp),
    digits_map_hexDigit (Nat.le_refl 16) hne (fun _ => hexDigitValues_lt), foldl_hexDigitValues b.isLt, Option.map_some,
    BitVec.ofNat_toNat]
  rfl

/-! ### The words of a line -/

/-- A word of a line: at least one character, none of which ends a word, a command or a line. -/
structure IsLineWord (word : List Char) : Prop where
  ne_nil : word ≠ []
  not_separator : ∀ c ∈ word, isSeparator c = false
  no_comment : ∀ c ∈ word, c ≠ ';'
  no_lineFeed : ∀ c ∈ word, c ≠ '\n'

theorem isLineWord_of_plain {word : List Char} (hne : word ≠ [])
    (h : ∀ c ∈ word, isSeparator c = false ∧ c ≠ ';' ∧ c ≠ '\n') : IsLineWord word where
  ne_nil := hne
  not_separator c hc := (h c hc).1
  no_comment c hc := (h c hc).2.1
  no_lineFeed c hc := (h c hc).2.2

theorem isLineWord_text (m : Mnemonic) : IsLineWord m.text.toList :=
  isLineWord_of_plain (by cases m <;> decide) (mnemonic_text_plain m)

theorem map_hexDigit_plain {ds : List Nat} (h : ∀ d ∈ ds, d < 16) :
    ∀ c ∈ ds.map hexDigit, isSeparator c = false ∧ c ≠ ';' ∧ c ≠ '\n' := by
  intro c hc
  obtain ⟨d, hd, rfl⟩ := List.mem_map.1 hc
  obtain ⟨hsep, hcomment, hline, -⟩ := hexDigit_plain d (h d hd)
  exact ⟨hsep, hcomment, hline⟩

/-- The digits of a decimal literal are a word. -/
theorem isLineWord_digits {ds : List Nat} (hne : ds ≠ []) (h : ∀ d ∈ ds, d < 16) : IsLineWord (ds.map hexDigit) :=
  isLineWord_of_plain (by simpa using hne) (map_hexDigit_plain h)

/-- A hexadecimal literal is a word. -/
theorem isLineWord_hex {ds : List Nat} (h : ∀ d ∈ ds, d < 16) : IsLineWord ('0' :: 'x' :: ds.map hexDigit) := by
  refine isLineWord_of_plain (List.cons_ne_nil _ _) ?_
  simp only [List.forall_mem_cons]
  exact ⟨by decide, by decide, map_hexDigit_plain h⟩

/-- A line without a comment sign is split at its separators. -/
theorem lineWords_of_no_comment {line : List Char} (h : ∀ c ∈ line, c ≠ ';') :
    lineWords line = (line.splitOnP isSeparator).filter (fun word => !word.isEmpty) := by
  rw [lineWords, List.takeWhile_eq_self_iff.2 (fun c hc => by simpa using h c hc)]

/-- A line of one word. -/
theorem lineWords_word {a : List Char} (ha : IsLineWord a) : lineWords a = [a] := by
  rw [lineWords_of_no_comment ha.no_comment, List.splitOnP_eq_singleton ha.not_separator]
  simpa using ha.ne_nil

/-- A line of two words and the space between them. -/
theorem lineWords_pair {a b : List Char} (ha : IsLineWord a) (hb : IsLineWord b) :
    lineWords (a ++ ' ' :: b) = [a, b] := by
  have hcomment : ∀ c ∈ a ++ ' ' :: b, c ≠ ';' := by
    rw [List.forall_mem_append, List.forall_mem_cons]
    exact ⟨ha.no_comment, by decide, hb.no_comment⟩
  rw [lineWords_of_no_comment hcomment, List.splitOnP_append_cons_of_forall_mem ha.not_separator ' ' rfl,
    List.splitOnP_eq_singleton hb.not_separator]
  simp [ha.ne_nil, hb.ne_nil]

/-! ### The commands of a line's words -/

/-- A mnemonic is found by its text: no two texts are the same. -/
theorem find?_text (m : Mnemonic) : Mnemonic.all.find? (fun m' => m'.text.toList == m.text.toList) = some m := by
  cases m <;> decide

/-- A mnemonic and literals are the written command of the literals' values. -/
theorem assembleWords_text (m : Mnemonic) {args : List (List Char)} {ns : List Nat}
    (h : args.mapM literal = some ns) : assembleWords (m.text.toList :: args) = assembleCommand ⟨m, ns⟩ := by
  simp only [assembleWords, find?_text, h]

/-- A line that is a mnemonic of format N is its command. -/
theorem assembleLine_text {m : Mnemonic} (hm : m.format = .N) :
    assembleLine m.text.toList = .ok [m.build 0#32] := by
  rw [assembleLine, lineWords_word (isLineWord_text m), assembleWords_text m (ns := []) rfl]
  simp [assembleCommand, RawCommand.wf, hm, Format.operandBits]

/-- A line that is a mnemonic with operand and a literal is its command, if the value fits the operand. -/
theorem assembleLine_literal {m : Mnemonic} {n v : Nat} {lit : List Char} (hm : m.format.operandBits = some n)
    (hword : IsLineWord lit) (hlit : literal lit = some v) :
    assembleLine (m.text.toList ++ ' ' :: lit) =
      if v < 2 ^ n then .ok [m.build (BitVec.ofNat 32 v)] else .error .illFormed := by
  rw [assembleLine, lineWords_pair (isLineWord_text m) hword, assembleWords_text m (ns := [v]) (by simp [hlit])]
  simp [assembleCommand, RawCommand.wf, hm]

/-! ### Printed commands -/

/-- An operand is printed alike before and after it is widened to the argument. -/
theorem printOperand_eq {n : Nat} (hn : n ≤ 32) (imm : BitVec n) :
    printOperand imm = ' ' :: '0' :: 'x' :: (hexDigitValues (n / 4) (imm.setWidth 32).toNat).map hexDigit := by
  rw [printOperand, hexDigits_eq_map, BitVec.toNat_setWidth_of_le hn]

/-- A command of format N is printed as its mnemonic. -/
theorem printInstr_of_N {i : Instr} (h : i.mnemonic.format = .N) : printInstr i = i.mnemonic.text.toList := by
  cases i with
  | c16Rd | c32Rd | ciLin => rfl
  | _ => cases h

/-- A command with an operand is printed as its mnemonic and a hexadecimal literal of its argument. -/
theorem printInstr_of_operandBits {i : Instr} {n : Nat} (h : i.mnemonic.format.operandBits = some n) :
    printInstr i = i.mnemonic.text.toList ++
      ' ' :: '0' :: 'x' :: (hexDigitValues (n / 4) i.argument.toNat).map hexDigit := by
  cases i with
  | c16Rd | c32Rd | ciLin => cases h
  | c16Ld | c16B | c32Ld | c32B | ciKey | ciSfc | ciB =>
    cases h
    rw [printInstr, printOperand_eq (by decide)]
    rfl

/-- A printed command has no comment sign and no line feed in it. -/
theorem printInstr_plain (i : Instr) : ∀ c ∈ printInstr i, c ≠ ';' ∧ c ≠ '\n' := by
  have htext : ∀ c ∈ i.mnemonic.text.toList, c ≠ ';' ∧ c ≠ '\n' := fun c hc =>
    ⟨(isLineWord_text i.mnemonic).no_comment c hc, (isLineWord_text i.mnemonic).no_lineFeed c hc⟩
  cases h : i.mnemonic.format.operandBits with
  | none => rwa [printInstr_of_N (Format.eq_N_of_operandBits h)]
  | some n =>
    have hlit := isLineWord_hex (ds := hexDigitValues (n / 4) i.argument.toNat) fun _ => hexDigitValues_lt
    rw [printInstr_of_operandBits h, List.forall_mem_append, List.forall_mem_cons]
    exact ⟨htext, by decide, fun c hc => ⟨hlit.no_comment c hc, hlit.no_lineFeed c hc⟩⟩

/-- Every command is read back from the line it is printed as. -/
theorem assembleLine_printInstr (i : Instr) : assembleLine (printInstr i) = .ok [i] := by
  cases h : i.mnemonic.format.operandBits with
  | none =>
    have hN := Format.eq_N_of_operandBits h
    have hi : i.mnemonic.build 0#32 = i := by
      have hz := i.argument_fits
      rw [hN, mustBeZero_N_iff] at hz
      rw [← hz, i.build_argument]
    rw [printInstr_of_N hN, assembleLine_text hN, hi]
  | some n =>
    obtain ⟨hpos, hpow⟩ := Format.operandBits_hex h
    have hlt := Instr.argument_lt h
    have hne : hexDigitValues (n / 4) i.argument.toNat ≠ [] := fun hnil =>
      hpos (by simpa using congrArg List.length hnil)
    have hdigits : ∀ d ∈ hexDigitValues (n / 4) i.argument.toNat, d < 16 := fun _ => hexDigitValues_lt
    rw [printInstr_of_operandBits h, assembleLine_literal h (isLineWord_hex hdigits) (literal_hex hne hdigits),
      foldl_hexDigitValues (hpow ▸ hlt), if_pos hlt, BitVec.ofNat_toNat, BitVec.setWidth_eq, i.build_argument]

/-! ### Lines and texts -/

/-- The comment of a line gives no commands. -/
theorem assembleLine_comment {line : List Char} (comment : List Char) (h : ∀ c ∈ line, c ≠ ';') :
    assembleLine (line ++ ';' :: comment) = assembleLine line := by
  rw [assembleLine, assembleLine, lineWords_comment line comment h]

/-- A line gives the command it holds, if it holds one. -/
theorem assembleLine_printLine (i : Option Instr) (comment : Option (List Char)) :
    assembleLine (printLine i comment) = .ok i.toList := by
  have hline : assembleLine ((i.map printInstr).getD []) = .ok i.toList := by
    cases i with
    | none => rfl
    | some i => exact assembleLine_printInstr i
  have hplain : ∀ c ∈ (i.map printInstr).getD [], c ≠ ';' := by
    cases i with
    | none => exact fun _ hc => nomatch hc
    | some i => exact fun c hc => (printInstr_plain i c hc).1
  cases comment with
  | none => simpa [printLine] using hline
  | some cs => exact (assembleLine_comment cs hplain).trans hline

/-- Lines give their commands in order. -/
theorem assembleLines_map {α : Type} {line : α → List Char} {is : α → List Instr} (xs : List α)
    (h : ∀ x ∈ xs, assembleLine (line x) = .ok (is x)) : assembleLines (xs.map line) = .ok (xs.flatMap is) := by
  induction xs with
  | nil => rfl
  | cons x xs ih =>
    obtain ⟨hx, hxs⟩ := List.forall_mem_cons.1 h
    simp [assembleLines, hx, ih hxs]

/-- A printed line has no line feed, unless its comment has. -/
theorem printLine_no_lineFeed (i : Option Instr) {comment : Option (List Char)}
    (h : ∀ cs, comment = some cs → '\n' ∉ cs) : '\n' ∉ printLine i comment := by
  have hcmd : '\n' ∉ (i.map printInstr).getD [] := by
    cases i with
    | none => exact List.not_mem_nil
    | some i => exact fun hc => (printInstr_plain i _ hc).2 rfl
  cases comment with
  | none => simpa [printLine] using hcmd
  | some cs => simpa [printLine] using ⟨hcmd, h cs rfl⟩

/-- A text is read line by line. -/
theorem assemble_intercalate {lines : List (List Char)} (hne : lines ≠ []) (h : ∀ line ∈ lines, '\n' ∉ line) :
    assemble (String.ofList (['\n'].intercalate lines)) = assembleLines lines := by
  rw [assemble, String.toList_ofList, List.splitOn_intercalate '\n' h hne]

/-- Settles O9: a line is a mnemonic alone or a mnemonic and a literal, and a printed command is one of the two. -/
theorem assemblerReadsPrintedCommands : Obligations.AssemblerReadsPrintedCommands := by
  refine ⟨fun m hm => assembleLine_text hm, fun m n ds hm hne hds => ?_, fun m n ds hm hne hds => ?_,
    assembleLine_printInstr, fun i comment => assembleLine_printLine (some i) (some comment), rfl,
    fun comment => assembleLine_printLine none (some comment), fun is => ?_⟩
  · have hhex : ∀ d ∈ ds, d < 16 := fun d hd => Nat.lt_trans (hds d hd) (by decide)
    exact assembleLine_literal hm (isLineWord_digits hne hhex) (literal_decimal hne hds)
  · exact assembleLine_literal hm (isLineWord_hex hds) (literal_hex hne hds)
  · rw [assembleLines_map is fun i _ => assembleLine_printInstr i, List.flatMap_singleton']

/-- Settles O60: splitting undoes joining where no line has a line feed, and then each line gives what it holds. -/
theorem assemblerReadsTextsLineByLine : Obligations.AssemblerReadsTextsLineByLine := by
  refine ⟨fun lines => assemble_intercalate, fun items h => ?_⟩
  have hlines : assembleLines (items.map fun p => printLine p.1 p.2) = .ok (items.filterMap Prod.fst) := by
    rw [assembleLines_map items fun p _ => assembleLine_printLine p.1 p.2, List.filterMap_eq_flatMap_toList]
  cases items with
  | nil => rfl
  | cons p items =>
    rw [assemble_intercalate (by simp) ?_, hlines]
    intro line hline
    obtain ⟨q, hq, rfl⟩ := List.mem_map.1 hline
    exact printLine_no_lineFeed q.1 (h q hq)

/-! ### Pseudo-commands (rule R58) -/

/-- A well-formed pseudo-command is replaced by its expansion. -/
theorem assemblePseudo_of_wf {p : Pseudo} (h : p.wf = true) : assemblePseudo p = .ok p.expand := if_pos h

/-- Bytes are read back from their two digits each. -/
theorem mapM_hexByte_hexDigits (bytes : List U8) :
    (bytes.map (fun b => hexDigits 2 b.toNat)).mapM hexByte = some bytes := by
  induction bytes with
  | nil => rfl
  | cons b bytes ih => simp [hexByte_hexDigits, ih]

/-- A `DATA` pseudo-command is read from its bytes' digits. -/
theorem data_hexDigits {p : List U8 → Pseudo} {bytes : List U8} (h : (p bytes).wf = true) :
    data p (bytes.map (fun b => hexDigits 2 b.toNat)) = .ok (p bytes).expand := by
  simp only [data, mapM_hexByte_hexDigits, assemblePseudo_of_wf h]

/-- Settles O8: the expansions and the written forms without bytes are the definitions' own, and a `DATA` line's
bytes are read back from their digits. -/
theorem pseudoCommandsExpand : Obligations.PseudoCommandsExpand := by
  refine ⟨rfl, rfl, rfl, fun _ => rfl, fun _ => rfl, fun _ => rfl, fun _ => assemblePseudo_of_wf, rfl, rfl, rfl,
    fun bytes hne => ?_⟩
  have hwf : (!bytes.isEmpty) = true := by simpa using hne
  exact ⟨data_hexDigits (p := .c16Data) hwf, data_hexDigits (p := .c32Data) hwf, data_hexDigits (p := .ciData) hwf⟩

end Sys2Proof.Machine
end

section
/-! PROOFS. A divider's register over a sequence of bits or bytes, for both CRC units; command words with zero bits
above the operand; and the run of a command list from its first word. -/

namespace Sys2Proof.Machine

/-! ### Folds that are linear or injective in their start -/

/-- A step that is linear in register and data is linear over a whole sequence. -/
theorem foldl_zipWith_hom {α β : Type} {f : α → β → α} {p : α → α → α} {q : β → β → β}
    (h : ∀ c c' d d', f (p c c') (q d d') = p (f c d) (f c' d')) {ds ds' : List β} (hlen : ds.length = ds'.length)
    (c c' : α) : (List.zipWith q ds ds').foldl f (p c c') = p (ds.foldl f c) (ds'.foldl f c') := by
  induction ds generalizing ds' c c' with
  | nil => rw [List.length_eq_zero_iff.1 hlen.symm]; rfl
  | cons d ds ih =>
    cases ds' with
    | nil => cases hlen
    | cons d' ds' =>
      rw [List.zipWith_cons_cons, List.foldl_cons, h]
      exact ih (Nat.succ.inj hlen) (f c d) (f c' d')

/-- A step that loses nothing of the register loses nothing of it over a whole sequence. -/
theorem foldl_injective {α β : Type} {f : α → β → α} (h : ∀ d, Function.Injective fun c => f c d) (ds : List β) :
    Function.Injective fun c => ds.foldl f c := by
  induction ds with
  | nil => exact fun _ _ hc => hc
  | cons d ds ih => exact fun _ _ hc => h d (ih hc)

/-- XOR with zeros leaves a sequence. -/
theorem zipWith_xor_replicate_zero {n : Nat} (xs : List (BitVec n)) :
    List.zipWith (· ^^^ ·) xs (List.replicate xs.length 0#n) = xs := by
  induction xs with
  | nil => rfl
  | cons x xs ih => rw [List.length_cons, List.replicate_succ, List.zipWith_cons_cons, ih, BitVec.xor_zero]

/-- A divider's feedback is linear in the bit that decides on it. -/
theorem feedback_xor {n : Nat} (poly : BitVec n) (d d' : Bool) :
    (if xor d d' then poly else 0#n) = (if d then poly else 0#n) ^^^ (if d' then poly else 0#n) := by
  cases d <;> cases d' <;> simp

/-! ### Command words with must-be-zero bits (30_encoding.md rule R51) -/

/-- Widening an operand puts zeros above it. -/
theorem append_setWidth {k n : Nat} (m : Nat) (op : BitVec k) (imm : BitVec n) :
    op ++ imm.setWidth (m + n) = (op ++ 0#m ++ imm).cast (Nat.add_assoc k m n) := by
  rw [BitVec.append_assoc, BitVec.setWidth_eq_append (Nat.le_add_left n m)]
  simp

/-- The word of a command of format B. -/
theorem commandWord_imm8 (op : U8) (imm : U8) : commandWord op (imm.setWidth 32) = op ++ 0#24 ++ imm :=
  append_setWidth 24 op imm

/-- The word of a command of format H. -/
theorem commandWord_imm16 (op : U8) (imm : U16) : commandWord op (imm.setWidth 32) = op ++ 0#16 ++ imm :=
  append_setWidth 16 op imm

/-! ### The run of a command list from its first word (rules R59, R60) -/

/-- Loading a list and running it to its end has the effect of its commands. -/
theorem runWords_encodeAll {s : State} (is : List Instr) (hf : s.fault = none) :
    runWords is.length (encodeAll is) s =
      .next ((is.foldl State.afterInstr s).withList (encodeAll is) is.length) := by
  have hrun := run_encodeAll is [] [] hf 0
  rwa [List.append_nil, List.length_nil, Nat.zero_add] at hrun

end Sys2Proof.Machine
end

section
/-! PROOFS. The CRC-16 unit (40_crc16.md). Two facts carry the laws: the bit step is linear over XOR (rule R79), and a
register that is fed its own top bits only shifts. From them a byte step is the remainder of one byte and a shift. -/

namespace Sys2Proof.Machine

/-! ### The bit step (rule R70) -/

/-- The bit step is linear over XOR. -/
theorem c16Bit_xor (c c' : U16) (d d' : Bool) : c16Bit (c ^^^ c') (xor d d') = c16Bit c d ^^^ c16Bit c' d' := by
  have hfb : xor ((c ^^^ c').getLsbD 15) (xor d d') = xor (xor (c.getLsbD 15) d) (xor (c'.getLsbD 15) d') := by
    simp only [BitVec.getLsbD_xor, Bool.xor_assoc, Bool.xor_left_comm]
  simp only [c16Bit, hfb, feedback_xor _ (xor _ d), BitVec.shiftLeft_xor_distrib]
  ac_rfl

/-- Fed the bit that leaves the register, the step only shifts. -/
theorem c16Bit_self (c : U16) : c16Bit c (c.getLsbD 15) = c <<< 1 := by
  simp [c16Bit]

/-- Fed a zero, the step is the byte form's (rule R78). -/
theorem c16Bit_false (c : U16) : c16Bit c false = c16Shift c := by
  rw [c16Bit, Bool.xor_false, c16Shift]

/-- The bit step as the test of the feedback bit. -/
theorem c16Bit_eq_ite (c : U16) (d : Bool) :
    c16Bit c d = if c.getLsbD 15 != d then (c <<< 1) ^^^ 0x1021#16 else c <<< 1 := by
  have hne : (c.getLsbD 15 != d) = xor (c.getLsbD 15) d := rfl
  rw [hne, c16Bit]
  cases xor (c.getLsbD 15) d with
  | true => rfl
  | false => exact BitVec.xor_zero

/-- The byte form's shift as the test of the bit that leaves. -/
theorem c16Shift_eq_ite : c16Shift = fun t => if t.getLsbD 15 then (t <<< 1) ^^^ 0x1021#16 else t <<< 1 := by
  funext t
  rw [← c16Bit_false, c16Bit_eq_ite, Bool.bne_false]

/-- The bit step loses nothing of the register: the bit that leaves it is read back from bit 0. -/
theorem c16Bit_injective (d : Bool) : Function.Injective fun c => c16Bit c d := by
  intro c c' h
  have hbit0 (c : U16) : (c16Bit c d).getLsbD 0 = xor (c.getLsbD 15) d := by
    rw [c16Bit]
    cases xor (c.getLsbD 15) d with
    | true => simp [Config.crc16Poly]
    | false => simp
  have htop : c.getLsbD 15 = c'.getLsbD 15 :=
    Bool.xor_left_inj.1 ((hbit0 c).symm.trans ((congrArg (·.getLsbD 0) h).trans (hbit0 c')))
  have hshift : c <<< 1 = c' <<< 1 := by
    simp only [c16Bit, htop] at h
    exact (BitVec.xor_left_inj _).1 h
  apply BitVec.eq_of_getLsbD_eq
  intro k hk
  by_cases hk15 : k = 15
  · rw [hk15, htop]
  · have hk1 := congrArg (·.getLsbD (k + 1)) hshift
    have hlt : k + 1 < 16 := by omega
    simpa [hlt, hk, BitVec.getLsbD_eq_getElem] using hk1

/-! ### The byte step (rules R71, R78, R79) -/

/-- The bits of two bytes' XOR. -/
theorem bitsMsbFirst_xor (b b' : U8) :
    bitsMsbFirst (b ^^^ b') = List.zipWith xor (bitsMsbFirst b) (bitsMsbFirst b') := by
  simp [bitsMsbFirst]

/-- The byte step is linear over XOR. -/
theorem c16Byte_xor (c c' : U16) (b b' : U8) : c16Byte (c ^^^ c') (b ^^^ b') = c16Byte c b ^^^ c16Byte c' b' := by
  rw [c16Byte, bitsMsbFirst_xor]
  exact foldl_zipWith_hom c16Bit_xor (ds := bitsMsbFirst b) (ds' := bitsMsbFirst b') rfl c c'

/-- The byte step loses nothing of the register. -/
theorem c16Byte_injective (b : U8) : Function.Injective fun c => c16Byte c b :=
  foldl_injective c16Bit_injective (bitsMsbFirst b)

/-- Fed its own top bits, the register shifts by as many places. -/
theorem foldl_c16Bit_topBits (c : U16) {n : Nat} (hn : n ≤ 16) :
    ((List.range n).map fun k => c.getLsbD (15 - k)).foldl c16Bit c = c <<< n := by
  induction n with
  | zero => exact (BitVec.shiftLeft_zero c).symm
  | succ n ih =>
    have hbit : c.getLsbD (15 - n) = (c <<< n).getLsbD 15 := by
      have hle : ¬ 15 < n := by omega
      rw [BitVec.getLsbD_shiftLeft]
      simp [hle]
    rw [List.range_succ, List.map_append, List.foldl_append, ih (by omega), BitVec.shiftLeft_add, ← c16Bit_self,
      ← hbit]
    rfl

/-- A register is its two bytes. -/
theorem highByte_append_lowByte (c : U16) : c.extractLsb' 8 8 ++ c.extractLsb' 0 8 = c :=
  (BitVec.extractLsb'_append_extractLsb'_eq_extractLsb' (by rfl)).trans BitVec.extractLsb'_eq_self

/-- A shift by a byte moves the low byte to the high byte. -/
theorem highByte_shiftLeft (c : U16) : (c <<< 8).extractLsb' 8 8 = c.extractLsb' 0 8 := by
  apply BitVec.eq_of_getLsbD_eq
  intro k hk
  have hk16 : 8 + k < 16 := by omega
  simp only [BitVec.getLsbD_extractLsb', BitVec.getLsbD_shiftLeft, hk, hk16]
  simp

/-- A shift by a byte clears the low byte. -/
theorem lowByte_shiftLeft (c : U16) : (c <<< 8).extractLsb' 0 8 = 0#8 := by
  apply BitVec.eq_of_getLsbD_eq
  intro k hk
  simp [hk]

/-- A shift by two bytes leaves nothing. -/
theorem shiftLeft_byte_byte (c : U16) : (c <<< 8) <<< 8 = 0#16 := by
  rw [← BitVec.shiftLeft_add]
  exact BitVec.shiftLeft_eq_zero (by decide)

/-- Fed its own high byte, the register shifts by a byte. -/
theorem c16Byte_highByte (c : U16) : c16Byte c (c.extractLsb' 8 8) = c <<< 8 := by
  have hbits : bitsMsbFirst (c.extractLsb' 8 8) = (List.range 8).map fun k => c.getLsbD (15 - k) := by
    simp [bitsMsbFirst, List.range_succ]
  rw [c16Byte, hbits, foldl_c16Bit_topBits c (by decide)]

/-- A byte step is the remainder of the byte XORed with the register's high byte, and a shift: the form with a
remainder table. -/
theorem c16Byte_eq_remainder (c : U16) (b : U8) :
    c16Byte c b = c16Byte 0#16 (c.extractLsb' 8 8 ^^^ b) ^^^ (c <<< 8) := by
  rw [← c16Byte_highByte, ← c16Byte_xor, BitVec.zero_xor, BitVec.xor_comm _ b, BitVec.xor_assoc, BitVec.xor_self,
    BitVec.xor_zero]

/-- The high byte after a byte step: the remainder's, and the low byte moved up. -/
theorem highByte_c16Byte (c : U16) (b : U8) : (c16Byte c b).extractLsb' 8 8 =
    (c16Byte 0#16 (c.extractLsb' 8 8 ^^^ b)).extractLsb' 8 8 ^^^ c.extractLsb' 0 8 := by
  rw [c16Byte_eq_remainder, BitVec.extractLsb'_xor, highByte_shiftLeft]

/-- The low byte after a byte step: the remainder's. -/
theorem lowByte_c16Byte (c : U16) (b : U8) : (c16Byte c b).extractLsb' 0 8 =
    (c16Byte 0#16 (c.extractLsb' 8 8 ^^^ b)).extractLsb' 0 8 := by
  rw [c16Byte_eq_remainder, BitVec.extractLsb'_xor, lowByte_shiftLeft, BitVec.xor_zero]

/-- A zero byte is 8 shifts of the byte form. -/
theorem c16Byte_zero (c : U16) : c16Byte c 0x00#8 = c16Shift^[8] c := by
  rw [c16Byte_steps]
  simp only [BitVec.getLsbD_zero, c16Bit_false]
  rfl

/-- The byte step is the byte form: the byte stands in the high byte of a word, which fed to itself shifts out. -/
theorem c16Byte_eq_byteForm (c : U16) (b : U8) : c16Byte c b = c16Shift^[8] (c ^^^ (b.setWidth 16 <<< 8)) := by
  have hhigh : (b.setWidth 16 <<< 8).extractLsb' 8 8 = b :=
    (highByte_shiftLeft _).trans ((BitVec.extractLsb'_setWidth_of_le (by decide)).trans BitVec.extractLsb'_eq_self)
  have hword : c16Byte (b.setWidth 16 <<< 8) b = 0#16 := by
    have h := c16Byte_highByte (b.setWidth 16 <<< 8)
    rwa [hhigh, shiftLeft_byte_byte] at h
  rw [← c16Byte_zero, ← BitVec.xor_self (x := b), c16Byte_xor, hword, BitVec.xor_zero]

/-- A zero byte with the register 0 leaves it 0 (rule R77 (b)). -/
@[simp] theorem c16Byte_zero_zero : c16Byte 0x0000#16 0x00#8 = 0x0000#16 := by decide

/-- The bytes whose remainder's two bytes XOR to the byte itself. -/
theorem remainder_bytes_xor_eq : ∀ h : U8,
    (c16Byte 0#16 h).extractLsb' 8 8 ^^^ (c16Byte 0#16 h).extractLsb' 0 8 = h → h = 0x00#8 ∨ h = 0xF0#8 := by
  decide +kernel

/-- A zero byte leaves the register at two values only (R117 (c), (d)): the low byte of such a value is the low byte of
its high byte's remainder, so the high byte decides. -/
theorem c16Byte_zero_eq_self_iff (c : U16) : c16Byte c 0x00#8 = c ↔ c = 0x0000#16 ∨ c = 0xF01F#16 := by
  refine ⟨fun h => ?_, ?_⟩
  · have hhigh := highByte_c16Byte c 0x00#8
    have hlow := lowByte_c16Byte c 0x00#8
    rw [h, BitVec.xor_zero] at hhigh hlow
    rw [hlow] at hhigh
    rw [← highByte_append_lowByte c, hlow]
    obtain hb | hb := remainder_bytes_xor_eq _ hhigh.symm <;> rw [hb] <;> decide
  · rintro (rfl | rfl) <;> decide

/-! ### The sequence function (rules R72, R76, R77, R79, R81) -/

/-- Continuation. -/
theorem crc16_append (a b : List U8) (i : U16) : crc16 (a ++ b) i = crc16 b (crc16 a i) := List.foldl_append

/-- The sequence function loses nothing of the init. -/
theorem crc16_injective (m : List U8) : Function.Injective fun i => crc16 m i := foldl_injective c16Byte_injective m

/-- The sequence function is linear over XOR. -/
theorem crc16_zipWith_xor {x y : List U8} (h : x.length = y.length) (i j : U16) :
    crc16 (List.zipWith (· ^^^ ·) x y) (i ^^^ j) = crc16 x i ^^^ crc16 y j :=
  foldl_zipWith_hom c16Byte_xor h i j

/-- The init's contribution is that of as many zero bytes. -/
theorem crc16_eq_xor_init (m : List U8) (i : U16) :
    crc16 m i = crc16 m 0x0000#16 ^^^ crc16 (List.replicate m.length 0x00#8) i := by
  rw [← crc16_zipWith_xor (by simp), zipWith_xor_replicate_zero, BitVec.zero_xor]

/-- Zero bytes leave the register 0. -/
theorem crc16_replicate_zero (n : Nat) : crc16 (List.replicate n 0x00#8) 0x0000#16 = 0x0000#16 := by
  induction n with
  | zero => rfl
  | succ n ih => rw [List.replicate_succ, crc16_cons, c16Byte_zero_zero, ih]

/-- Fed its own two bytes, high byte first, the register shifts out. -/
theorem crc16_ownBytes (c : U16) : crc16 [c.extractLsb' 8 8, c.extractLsb' 0 8] c = 0x0000#16 := by
  rw [crc16_cons, crc16_cons, crc16_nil, c16Byte_highByte, ← highByte_shiftLeft, c16Byte_highByte,
    shiftLeft_byte_byte]

/-! ### The commands (rules R73 to R76, R80) -/

/-- Feeding bytes by `C16.B` computes the sequence function in `C16`, and nothing else. -/
theorem foldl_afterInstr_c16B (data : List U8) (s : State) :
    (data.map Instr.c16B).foldl State.afterInstr s = s.setC16 (crc16 data s.c16) := by
  induction data generalizing s with
  | nil => rfl
  | cons b rest ih => exact ih (s.setC16 (c16Byte s.c16 b))

/-- The effect of a load, bytes and a read-out. -/
theorem foldl_afterInstr_c16List (i : U16) (data : List U8) (s : State) :
    (.c16Ld i :: (data.map Instr.c16B ++ [.c16Rd])).foldl State.afterInstr s =
      (s.setC16 (crc16 data i)).emit (.outC16 (crc16 data i)) := by
  rw [List.foldl_cons, List.foldl_append, foldl_afterInstr_c16B]
  rfl

/-! ### The obligations -/

/-- Settles O29: a fold over an appended list, and the same for the commands' effect. -/
theorem crc16Continuation : Obligations.Crc16Continuation := by
  refine fun a b => ⟨crc16_append a b, fun s => ⟨_, _, execAll_eq _ s, execAll_eq _ s, ?_, ?_⟩⟩
  · rw [List.foldl_append, foldl_afterInstr_c16B, foldl_afterInstr_c16B, crc16_append]
    rfl
  · simp only [List.foldl_append, List.foldl_cons, foldl_afterInstr_c16B]
    rfl

/-- Settles O30: the values are computed; a leading zero byte is invisible exactly where it leaves the init, since the
rest of the message loses nothing of the register. -/
theorem crc16ElementaryValues : Obligations.Crc16ElementaryValues := by
  refine ⟨crc16_nil, rfl, c16Byte_zero_zero, crc16_replicate_zero, by decide, by decide, by decide,
    c16Byte_zero_eq_self_iff, fun m i => ?_⟩
  rw [crc16_cons, (crc16_injective m).eq_iff (a := c16Byte i 0x00#8), c16Byte_zero_eq_self_iff]

/-- Settles O31, by the byte form in the model's own shift. -/
theorem crc16ByteFormAgrees : Obligations.Crc16ByteFormAgrees := by
  intro c b
  rw [← c16Shift_eq_ite, c16Byte_eq_byteForm]

/-- Settles O32, from the linear bit step. -/
theorem crc16Linear : Obligations.Crc16Linear :=
  ⟨c16Byte_xor, fun _ _ i j h => crc16_zipWith_xor h i j, crc16_eq_xor_init⟩

/-- Settles O33: the run of the list is its commands' effect, which is the sequence function. -/
theorem crc16CommandListComputesFunction : Obligations.Crc16CommandListComputesFunction := by
  intro s i data hf
  have hlen : (Instr.c16Ld i :: (data.map Instr.c16B ++ [.c16Rd])).length = data.length + 2 := by simp
  have hrun := runWords_encodeAll (.c16Ld i :: (data.map Instr.c16B ++ [.c16Rd])) hf
  rwa [foldl_afterInstr_c16List, hlen] at hrun

/-- Settles O34: the two bytes are the register's own after the message. -/
theorem crc16SelfCheck : Obligations.Crc16SelfCheck :=
  fun m i => (crc16_append m _ i).trans (crc16_ownBytes (crc16 m i))

/-- Settles O27: the words by the format's lemma, the effects by the commands' equations. -/
theorem c16LoadAndRead : Obligations.C16LoadAndRead := by
  intro s v
  have henc : encode (.c16Ld v) = 0x10#8 ++ 0#16 ++ v := commandWord_imm16 0x10#8 v
  refine ⟨henc, henc ▸ decode_encode (.c16Ld v), rfl, rfl, rfl, rfl, ?_⟩
  rw [execAll_eq]
  simp [State.afterInstr, State.emit]

/-- Settles O28: the bit step by its feedback bit, the byte step by its bits, the word by its format's lemma. -/
theorem c16ByteFeedsBitSevenFirst : Obligations.C16ByteFeedsBitSevenFirst :=
  ⟨c16Bit_eq_ite, c16Byte_steps, fun _ b => ⟨commandWord_imm8 0x11#8 b, rfl⟩⟩

end Sys2Proof.Machine
end

section
/-! PROOFS. The CRC-32 unit (41_crc32.md). Two facts carry the laws: the bit step is linear over XOR (rule R95), and a
register that is fed its own low bits only shifts. From the second, a byte or a whole sequence read off the register
shifts it out. -/

namespace Sys2Proof.Machine

/-! ### The bit step (rules R85, R86) -/

/-- Bit by bit, the constant of the right-shifting register is the polynomial read from the other end (rule R85). -/
theorem crc32PolyR_getLsbD {k : Nat} (hk : k < 32) :
    Config.crc32PolyR.getLsbD (31 - k) = Config.crc32Poly.getLsbD k := by
  rw [← crc32PolyR_reverse, BitVec.getLsbD_reverse, BitVec.getMsbD, decide_eq_true hk, Bool.true_and]

/-- The bit step is linear over XOR. -/
theorem c32Bit_xor (c c' : U32) (d d' : Bool) : c32Bit (c ^^^ c') (xor d d') = c32Bit c d ^^^ c32Bit c' d' := by
  have hfb : xor ((c ^^^ c').getLsbD 0) (xor d d') = xor (xor (c.getLsbD 0) d) (xor (c'.getLsbD 0) d') := by
    simp only [BitVec.getLsbD_xor, Bool.xor_assoc, Bool.xor_left_comm]
  simp only [c32Bit, hfb, feedback_xor _ (xor _ d), BitVec.ushiftRight_xor_distrib]
  ac_rfl

/-- Fed the bit that leaves the register, the step only shifts. -/
theorem c32Bit_self (c : U32) : c32Bit c (c.getLsbD 0) = c >>> 1 := by
  simp [c32Bit]

/-- Fed a zero, the step is the byte form's (rule R94). -/
theorem c32Bit_false (c : U32) : c32Bit c false = c32Shift c := by
  rw [c32Bit, Bool.xor_false, c32Shift]

/-- The bit step as the test of the feedback bit. -/
theorem c32Bit_eq_ite (c : U32) (d : Bool) :
    c32Bit c d = if c.getLsbD 0 != d then (c >>> 1) ^^^ 0xEDB88320#32 else c >>> 1 := by
  have hne : (c.getLsbD 0 != d) = xor (c.getLsbD 0) d := rfl
  rw [hne, c32Bit]
  cases xor (c.getLsbD 0) d with
  | true => rfl
  | false => exact BitVec.xor_zero

/-- The byte form's shift as the test of the bit that leaves. -/
theorem c32Shift_eq_ite : c32Shift = fun t => if t.getLsbD 0 then (t >>> 1) ^^^ 0xEDB88320#32 else t >>> 1 := by
  funext t
  rw [← c32Bit_false, c32Bit_eq_ite, Bool.bne_false]

/-- After the bit step, bit 31 is the feedback bit: the shift clears it and the constant has it set. -/
theorem c32Bit_getLsbD_31 (c : U32) (d : Bool) : (c32Bit c d).getLsbD 31 = xor (c.getLsbD 0) d := by
  rw [c32Bit]
  cases xor (c.getLsbD 0) d with
  | true => simp [Config.crc32PolyR]
  | false => simp

/-- The bit step loses nothing of the register: the bit that leaves it is read back from bit 31. -/
theorem c32Bit_injective (d : Bool) : Function.Injective fun c => c32Bit c d := by
  intro c c' h
  have hlow : c.getLsbD 0 = c'.getLsbD 0 := by
    have h31 := congrArg (·.getLsbD 31) h
    simp only [c32Bit_getLsbD_31] at h31
    exact Bool.xor_left_inj.1 h31
  have hshift : c >>> 1 = c' >>> 1 := by
    simp only [c32Bit, hlow] at h
    exact (BitVec.xor_left_inj _).1 h
  apply BitVec.eq_of_getLsbD_eq
  intro k _
  cases k with
  | zero => exact hlow
  | succ k => simpa [Nat.add_comm] using congrArg (·.getLsbD k) hshift

/-! ### The byte step (rules R87, R94, R95) -/

/-- The bits of two bytes' XOR. -/
theorem bitsLsbFirst_xor (b b' : U8) :
    bitsLsbFirst (b ^^^ b') = List.zipWith xor (bitsLsbFirst b) (bitsLsbFirst b') := by
  simp [bitsLsbFirst]

/-- The byte step is linear over XOR. -/
theorem c32Byte_xor (c c' : U32) (b b' : U8) : c32Byte (c ^^^ c') (b ^^^ b') = c32Byte c b ^^^ c32Byte c' b' := by
  rw [c32Byte, bitsLsbFirst_xor]
  exact foldl_zipWith_hom c32Bit_xor (ds := bitsLsbFirst b) (ds' := bitsLsbFirst b') rfl c c'

/-- The byte step loses nothing of the register. -/
theorem c32Byte_injective (b : U8) : Function.Injective fun c => c32Byte c b :=
  foldl_injective c32Bit_injective (bitsLsbFirst b)

/-- Fed its own low bits, the register shifts by as many places. -/
theorem foldl_c32Bit_lowBits (c : U32) (n : Nat) : ((List.range n).map c.getLsbD).foldl c32Bit c = c >>> n := by
  induction n with
  | zero => rfl
  | succ n ih =>
    have hbit : c.getLsbD n = (c >>> n).getLsbD 0 := by rw [BitVec.getLsbD_ushiftRight, Nat.add_zero]
    rw [List.range_succ, List.map_append, List.foldl_append, ih, BitVec.shiftRight_add, ← c32Bit_self, ← hbit]
    rfl

/-- Fed its own low byte, the register shifts by a byte. -/
theorem c32Byte_lowByte (c : U32) : c32Byte c (c.extractLsb' 0 8) = c >>> 8 := by
  have hbits : bitsLsbFirst (c.extractLsb' 0 8) = (List.range 8).map c.getLsbD := by
    simp [bitsLsbFirst, List.range_succ]
  rw [c32Byte, hbits, foldl_c32Bit_lowBits]

/-- A zero byte is 8 shifts of the byte form. -/
theorem c32Byte_zero (c : U32) : c32Byte c 0x00#8 = c32Shift^[8] c := by
  rw [c32Byte_steps]
  simp only [BitVec.getLsbD_zero, c32Bit_false]
  rfl

/-- A byte in a register of its own shifts out, fed to itself. -/
theorem c32Byte_setWidth_self (b : U8) : c32Byte (b.setWidth 32) b = 0#32 := by
  have hlow : (b.setWidth 32).extractLsb' 0 8 = b :=
    (BitVec.extractLsb'_setWidth_of_le (by decide)).trans BitVec.extractLsb'_eq_self
  have hout : b.setWidth 32 >>> 8 = 0#32 := by bv_omega
  calc c32Byte (b.setWidth 32) b = c32Byte (b.setWidth 32) ((b.setWidth 32).extractLsb' 0 8) := by rw [hlow]
    _ = 0#32 := (c32Byte_lowByte _).trans hout

/-- The byte step is the byte form: the byte XORed into the register takes the data's place, by linearity. -/
theorem c32Byte_eq_byteForm (c : U32) (b : U8) : c32Byte c b = c32Shift^[8] (c ^^^ b.setWidth 32) := by
  rw [← c32Byte_zero, ← BitVec.xor_self (x := b), c32Byte_xor, c32Byte_setWidth_self, BitVec.xor_zero]

/-! ### The sequence function (rules R88, R92, R93, R95, R97) -/

/-- Continuation. -/
theorem crc32_append (a b : List U8) (i : U32) : crc32 (a ++ b) i = crc32 b (crc32 a i) := List.foldl_append

/-- The sequence function loses nothing of the init. -/
theorem crc32_injective (m : List U8) : Function.Injective fun i => crc32 m i := foldl_injective c32Byte_injective m

/-- The sequence function is linear over XOR. -/
theorem crc32_zipWith_xor {x y : List U8} (h : x.length = y.length) (i j : U32) :
    crc32 (List.zipWith (· ^^^ ·) x y) (i ^^^ j) = crc32 x i ^^^ crc32 y j :=
  foldl_zipWith_hom c32Byte_xor h i j

/-- The init's contribution is that of as many zero bytes. -/
theorem crc32_eq_xor_init (m : List U8) (i : U32) :
    crc32 m i = crc32 m 0x00000000#32 ^^^ crc32 (List.replicate m.length 0x00#8) i := by
  rw [← crc32_zipWith_xor (by simp), zipWith_xor_replicate_zero, BitVec.zero_xor]

/-- Fed its own low bytes, lowest first, the register shifts by as many bytes. -/
theorem crc32_lowBytes (c : U32) (n : Nat) :
    crc32 ((List.range n).map fun k => c.extractLsb' (8 * k) 8) c = c >>> (8 * n) := by
  induction n with
  | zero => rfl
  | succ n ih =>
    have hbyte : c.extractLsb' (8 * n) 8 = (c >>> (8 * n)).extractLsb' 0 8 := by
      apply BitVec.eq_of_getLsbD_eq
      intro k _
      simp only [BitVec.getLsbD_extractLsb', BitVec.getLsbD_ushiftRight, Nat.zero_add]
    rw [List.range_succ, List.map_append, crc32_append, ih, List.map_singleton, crc32_cons, crc32_nil, hbyte,
      c32Byte_lowByte, ← BitVec.shiftRight_add, Nat.mul_succ]

/-! ### The commands (rules R89 to R92, R96) -/

/-- Feeding bytes by `C32.B` computes the sequence function in `C32`, and nothing else. -/
theorem foldl_afterInstr_c32B (data : List U8) (s : State) :
    (data.map Instr.c32B).foldl State.afterInstr s = s.setC32 (crc32 data s.c32) := by
  induction data generalizing s with
  | nil => rfl
  | cons b rest ih => exact ih (s.setC32 (c32Byte s.c32 b))

/-- The effect of a load, bytes and a read-out. -/
theorem foldl_afterInstr_c32List (i : U32) (data : List U8) (s : State) :
    (.c32Ld i :: (data.map Instr.c32B ++ [.c32Rd])).foldl State.afterInstr s =
      (s.setC32 (crc32 data i)).emit (.outC32 (crc32 data i)) := by
  rw [List.foldl_cons, List.foldl_append, foldl_afterInstr_c32B]
  rfl

/-! ### The obligations -/

/-- Settles O37: the reflected constant by the reversal of the polynomial, the bit step by its feedback bit, the byte
step by its bits, the word by its format's lemma; the polynomial's coefficients and the corner values are computed. -/
theorem c32ByteFeedsBitZeroFirst : Obligations.C32ByteFeedsBitZeroFirst := by
  have hreverse : Config.crc32PolyR = Config.crc32Poly.reverse := by
    rw [← crc32PolyR_reverse, BitVec.reverse_reverse_eq]
  have hcoeff : ∀ k < 32,
      Config.crc32Poly.getLsbD k = decide (k ∈ [26, 23, 22, 16, 12, 11, 10, 8, 7, 5, 4, 2, 1, 0]) := by decide
  exact ⟨hreverse, rfl, fun k hk => ⟨hcoeff k hk, crc32PolyR_getLsbD hk⟩, c32Bit_eq_ite, c32Byte_steps,
    fun _ b => ⟨commandWord_imm8 0x21#8 b, rfl⟩, by decide, by decide, by decide, by decide⟩

/-- Settles O38: a fold over an appended list, and the same for the commands' effect. -/
theorem crc32Continuation : Obligations.Crc32Continuation := by
  refine fun a b => ⟨crc32_append a b, fun s => ⟨_, _, execAll_eq _ s, execAll_eq _ s, ?_, ?_⟩⟩
  · rw [List.foldl_append, foldl_afterInstr_c32B, foldl_afterInstr_c32B, crc32_append]
    rfl
  · simp only [List.foldl_append, List.foldl_cons, foldl_afterInstr_c32B]
    rfl

/-- Settles O39: the values are computed; a leading zero byte changes the default init, and no message after it loses
the difference. -/
theorem crc32ElementaryValues : Obligations.Crc32ElementaryValues := by
  have hinit : c32Byte Config.crc32Init 0x00#8 ≠ Config.crc32Init := by decide
  exact ⟨crc32_nil, rfl, by decide, by decide, by decide, by decide, by decide,
    fun m h => hinit (crc32_injective m h)⟩

/-- Settles O40, by the byte form in the model's own shift. -/
theorem crc32ByteFormAgrees : Obligations.Crc32ByteFormAgrees := by
  intro c b
  rw [← c32Shift_eq_ite, c32Byte_eq_byteForm]

/-- Settles O41, from the linear bit step. -/
theorem crc32Linear : Obligations.Crc32Linear :=
  ⟨c32Byte_xor, fun _ _ i j h => crc32_zipWith_xor h i j, crc32_eq_xor_init⟩

/-- Settles O42: the run of the list is its commands' effect, which is the sequence function. -/
theorem crc32CommandListComputesFunction : Obligations.Crc32CommandListComputesFunction := by
  intro s i data hf
  have hlen : (Instr.c32Ld i :: (data.map Instr.c32B ++ [.c32Rd])).length = data.length + 2 := by simp
  have hrun := runWords_encodeAll (.c32Ld i :: (data.map Instr.c32B ++ [.c32Rd])) hf
  rwa [foldl_afterInstr_c32List, hlen] at hrun

/-- Settles O43: the four bytes are the register's own after the message, and shift all 32 bits out. -/
theorem crc32SelfCheck : Obligations.Crc32SelfCheck := by
  intro m i
  calc crc32 (m ++ (List.range 4).map fun k => (crc32 m i).extractLsb' (8 * k) 8) i
      = crc32 m i >>> (8 * 4) := (crc32_append m _ i).trans (crc32_lowBytes (crc32 m i) 4)
    _ = 0x00000000#32 := BitVec.ushiftRight_eq_zero (by decide)

/-- Settles O36: the word by its definition, its reading by the round trip, the effects by the commands' equations. -/
theorem c32LoadAndRead : Obligations.C32LoadAndRead := by
  intro s v
  refine ⟨rfl, rfl, decode_encode (.c32Ld v), rfl, rfl, ?_⟩
  rw [execAll_eq]
  simp [State.afterInstr, State.emit]

end Sys2Proof.Machine
end

section
/-! PROOFS. The cipher unit's functions (42_cipher.md sections 2 and 3): the LFSR step bit by bit, linear mode by the
place of a byte, SFC mode by its address. One fact joins an address to the next in SFC mode: `sfc_state(key, A + 1)` is
what the engine has after the byte at `A` (rule R107). -/

namespace Sys2Proof.Machine

/-! ### The LFSR step (rule R100) -/

/-- The step as the test of the bit that leaves. -/
theorem lfsrStep_eq_ite (k : U16) :
    lfsrStep k = if k.getLsbD 15 then (k <<< 1) ^^^ 0x1021#16 else k <<< 1 := by
  rw [lfsrStep]
  cases k.getLsbD 15 with
  | true => rfl
  | false => exact BitVec.xor_zero

/-- The feedback value has bits 0, 5 and 12 set. -/
theorem lfsrPoly_getLsbD : ∀ i < 16, Config.lfsrPoly.getLsbD i = decide (i = 0 ∨ i = 5 ∨ i = 12) := by decide

/-- A bit after the step: the bit below it, XORed with the bit that leaves where the feedback value is set. -/
theorem lfsrStep_getLsbD (k : U16) {i : Nat} (hi : i < 16) : (lfsrStep k).getLsbD i =
    xor (!decide (i < 1) && k.getLsbD (i - 1)) (k.getLsbD 15 && decide (i = 0 ∨ i = 5 ∨ i = 12)) := by
  rw [lfsrStep, BitVec.getLsbD_xor, BitVec.getLsbD_shiftLeft, decide_eq_true hi, Bool.true_and,
    ← lfsrPoly_getLsbD i hi]
  cases k.getLsbD 15 <;> simp

/-- Bit 0 after the step is the bit that left. -/
theorem lfsrStep_getLsbD_zero (k : U16) : (lfsrStep k).getLsbD 0 = k.getLsbD 15 := by
  rw [lfsrStep_getLsbD k (by decide)]
  simp

/-! ### Linear mode (rules R103, R104, R114, R116) -/

@[simp] theorem length_cryptLin (data : List U8) (k : U16) : (cryptLin data k).length = data.length := by
  induction data generalizing k with
  | nil => rfl
  | cons b rest ih => simp [ih]

/-- The closed form: byte `j` meets the low byte of the key advanced `j` steps. -/
theorem cryptLin_getElem? (data : List U8) (k : U16) (j : Nat) :
    (cryptLin data k)[j]? = data[j]?.map (· ^^^ ks (lfsrAdv k j)) := by
  induction data generalizing k j with
  | nil => rfl
  | cons b rest ih =>
    cases j with
    | zero => rfl
    | succ j => simp [ih, lfsrAdv_step]

/-- A range in two pieces, the second continued where the first left the LFSR. -/
theorem cryptLin_append (a b : List U8) (k : U16) :
    cryptLin (a ++ b) k = cryptLin a k ++ cryptLin b (lfsrAdv k a.length) := by
  induction a generalizing k with
  | nil => rfl
  | cons x rest ih => simp [ih, lfsrAdv_step]

/-- The keystream met twice cancels. -/
theorem cryptLin_cryptLin (r : List U8) (k : U16) : cryptLin (cryptLin r k) k = r := by
  induction r generalizing k with
  | nil => rfl
  | cons b rest ih => simp [ih]

/-! ### The place of an address in its block, and the block key (rules R105, R118) -/

theorem sfcOffset_eq (a : Addr) : sfcOffset a = a.toNat % 32 := rfl

/-- The next address is one place on, or at place 0 of a block. -/
theorem sfcOffset_succ (a : Addr) : sfcOffset (a + 1#32) = (a.toNat + 1) % 32 := by
  have hadd : (a + 1#32).toNat = (a.toNat + 1) % 2 ^ 32 := BitVec.toNat_add a 1#32
  rw [sfcOffset_eq, hadd]
  omega

/-- The block start keeps the address bits from 5 on. -/
theorem sfcBlockStart_getLsbD (a : Addr) {i : Nat} (hi : i < 32) :
    (sfcBlockStart a).getLsbD i = (a.getLsbD i && decide (5 ≤ i)) := by
  have hmask : ∀ i < 32, (~~~(BitVec.ofNat 32 (Config.sfcBlock - 1))).getLsbD i = decide (5 ≤ i) := by decide
  rw [sfcBlockStart, BitVec.getLsbD_and, hmask i hi]

/-- The block key is the key with address bits 17:5 XORed into its bits 15:3. -/
theorem sfcBlockKey_eq (key : U16) (a : Addr) : sfcBlockKey key a = key ^^^ (a.extractLsb' 5 13 ++ 0#3) := by
  apply BitVec.eq_of_getLsbD_eq
  intro i hi
  have hstart := sfcBlockStart_getLsbD a (i := 2 + i) (by omega)
  rw [sfcBlockKey, BitVec.getLsbD_setWidth, BitVec.getLsbD_xor, BitVec.getLsbD_setWidth, BitVec.getLsbD_ushiftRight,
    Config.sfcShift, hstart, BitVec.getLsbD_xor, BitVec.getLsbD_append, BitVec.getLsbD_extractLsb', BitVec.getLsbD_zero]
  have hi32 : i < 32 := by omega
  by_cases h3 : i < 3
  · have h5 : ¬ 5 ≤ 2 + i := by omega
    simp [h3, h5, hi, hi32]
  · have h5 : 5 ≤ 2 + i := by omega
    have h13 : i - 3 < 13 := by omega
    have hidx : 5 + (i - 3) = 2 + i := by omega
    simp [h3, h5, h13, hidx, hi, hi32]

/-- Two addresses with the same bits 17:5 have the same block key. -/
theorem sfcBlockKey_congr (key : U16) {a b : Addr} (h : a.extractLsb' 5 13 = b.extractLsb' 5 13) :
    sfcBlockKey key a = sfcBlockKey key b := by
  rw [sfcBlockKey_eq, sfcBlockKey_eq, h]

/-- Address bits 17:5 as a number. -/
theorem toNat_blockBits (a : Addr) : (a.extractLsb' 5 13).toNat = a.toNat / 32 % 2 ^ 13 := by
  rw [BitVec.extractLsb'_toNat, Nat.shiftRight_eq_div_pow]

/-- Inside a block the next address has the same block key. -/
theorem sfcBlockKey_succ (key : U16) {a : Addr} (h : sfcOffset (a + 1#32) ≠ 0) :
    sfcBlockKey key (a + 1#32) = sfcBlockKey key a := by
  rw [sfcOffset_succ] at h
  have hadd : (a + 1#32).toNat = (a.toNat + 1) % 2 ^ 32 := BitVec.toNat_add a 1#32
  refine sfcBlockKey_congr key (BitVec.eq_of_toNat_eq ?_)
  rw [toNat_blockBits, toNat_blockBits, hadd]
  omega

/-! ### The LFSR value at an address (rules R106, R107) -/

/-- At a block start it is the block key. -/
theorem sfcState_of_offset_zero (key : U16) {a : Addr} (h : sfcOffset a = 0) : sfcState key a = sfcBlockKey key a := by
  rw [sfcState, h, lfsrAdv_zero]

/-- Inside a block it is one step on from the address before. -/
theorem sfcState_succ (key : U16) {a : Addr} (h : sfcOffset (a + 1#32) ≠ 0) :
    sfcState key (a + 1#32) = lfsrStep (sfcState key a) := by
  have hplace : sfcOffset (a + 1#32) = sfcOffset a + 1 := by
    rw [sfcOffset_succ] at h ⊢
    rw [sfcOffset_eq]
    omega
  rw [sfcState, sfcBlockKey_succ key h, hplace, lfsrAdv_succ, sfcState]

/-- What the engine has after the byte at `a` is the value at the next address. -/
theorem sfcReload_sfcState (key : U16) (a : Addr) :
    sfcReload key (a + 1#32) (lfsrStep (sfcState key a)) = sfcState key (a + 1#32) := by
  rw [sfcReload]
  by_cases h : sfcOffset (a + 1#32) = 0
  · rw [if_pos h, sfcState_of_offset_zero key h]
  · rw [if_neg h, sfcState_succ key h]

/-! ### Addresses 0x40000 apart (rule R118) -/

/-- Address bits 17:0 decide. -/
theorem sfcState_congr (key : U16) {a b : Addr} (h : a.extractLsb' 0 18 = b.extractLsb' 0 18) :
    sfcState key a = sfcState key b := by
  have hlow : a.toNat % 2 ^ 18 = b.toNat % 2 ^ 18 := by simpa using congrArg BitVec.toNat h
  have hblock : sfcBlockKey key a = sfcBlockKey key b := by
    refine sfcBlockKey_congr key (BitVec.eq_of_toNat_eq ?_)
    rw [toNat_blockBits, toNat_blockBits]
    omega
  have hplace : sfcOffset a = sfcOffset b := by
    rw [sfcOffset_eq, sfcOffset_eq]
    omega
  rw [sfcState, sfcState, hblock, hplace]

/-- The value 0x40000 further on is the same. -/
theorem sfcState_period (key : U16) (a : Addr) : sfcState key a = sfcState key (a + 0x40000#32) := by
  refine sfcState_congr key (BitVec.eq_of_toNat_eq ?_)
  rw [BitVec.extractLsb'_toNat, BitVec.extractLsb'_toNat, Nat.shiftRight_zero, Nat.shiftRight_zero, BitVec.toNat_add,
    BitVec.toNat_ofNat]
  omega

/-! ### SFC mode (rules R107, R114, R115) -/

/-- The address after a byte and `n` more. -/
theorem addr_succ_add (a : Addr) (n : Nat) : a + 1#32 + BitVec.ofNat 32 n = a + BitVec.ofNat 32 (n + 1) := by
  rw [BitVec.ofNat_add, BitVec.add_assoc, BitVec.add_comm 1#32]

@[simp] theorem length_cryptSfc (data : List U8) (key : U16) (a : Addr) :
    (cryptSfc data key a).length = data.length := by
  induction data generalizing a with
  | nil => rfl
  | cons b rest ih => simp [ih]

/-- The closed form: byte `j` meets the low byte of the value at its own address. -/
theorem cryptSfc_getElem? (data : List U8) (key : U16) (a : Addr) (j : Nat) :
    (cryptSfc data key a)[j]? = data[j]?.map (· ^^^ ks (sfcState key (a + BitVec.ofNat 32 j))) := by
  induction data generalizing a j with
  | nil => rfl
  | cons b rest ih =>
    cases j with
    | zero => simp
    | succ j => simp [ih, addr_succ_add]

/-- The engine that steps and reloads, started at the value of its address, computes the range function. -/
theorem sfcEngine_eq_cryptSfc (data : List U8) (key : U16) (a : Addr) :
    sfcEngine data key a (sfcState key a) = cryptSfc data key a := by
  induction data generalizing a with
  | nil => rfl
  | cons b rest ih => rw [sfcEngine_cons, cryptSfc_cons, sfcReload_sfcState, ih]

/-- The keystream met twice cancels. -/
theorem cryptSfc_cryptSfc (r : List U8) (key : U16) (a : Addr) : cryptSfc (cryptSfc r key a) key a = r := by
  induction r generalizing a with
  | nil => rfl
  | cons b rest ih => simp [ih]

/-- The output from place `n` on is that of the bytes there, standing where they stand. -/
theorem cryptSfc_drop (r : List U8) (key : U16) (a : Addr) (n : Nat) :
    (cryptSfc r key a).drop n = cryptSfc (r.drop n) key (a + BitVec.ofNat 32 n) := by
  induction r generalizing a n with
  | nil => simp
  | cons b rest ih =>
    cases n with
    | zero => simp
    | succ n => simp [ih, addr_succ_add]

/-- The first `n` bytes of the output are those of the first `n` bytes. -/
theorem cryptSfc_take (r : List U8) (key : U16) (a : Addr) (n : Nat) :
    (cryptSfc r key a).take n = cryptSfc (r.take n) key a := by
  induction r generalizing a n with
  | nil => simp
  | cons b rest ih =>
    cases n with
    | zero => simp
    | succ n => simp [ih]

/-! ### The obligations -/

/-- Settles O47: bit `i` after the step, with the feedback value's three bits told apart. -/
theorem lfsrStepBitByBit : Obligations.LfsrStepBitByBit := by
  refine fun k => ⟨lfsrStep_eq_ite k, fun i hi => ?_⟩
  rw [lfsrStep_getLsbD k hi]
  by_cases h0 : i = 0
  · simp [h0]
  · by_cases h : i = 5 ∨ i = 12 <;> simp [h0, h]

/-- Settles O48: the datapath's bits are those of the XOR, the range is its closed form. -/
theorem linearRangeClosedForm : Obligations.LinearRangeClosedForm := by
  refine ⟨fun k b => ⟨rfl, fun i hi => ?_⟩, fun data key => ⟨length_cryptLin data key, fun j b hb => ?_⟩⟩
  · have hks : (ks k).getLsbD i = k.getLsbD i := by simp [ks, hi]
    exact ⟨hks, (BitVec.getLsbD_xor).trans (congrArg _ hks)⟩
  · rw [cryptLin_getElem?, hb]
    rfl

/-- Settles O49: the block key as the key XORed with address bits 17:5. -/
theorem sfcBlockKeyBitByBit : Obligations.SfcBlockKeyBitByBit := by
  refine fun key a => ⟨rfl, rfl, fun i hi => ?_, fun a' => sfcBlockKey_congr key⟩
  rw [sfcBlockKey_eq, BitVec.getLsbD_xor, BitVec.getLsbD_append, BitVec.getLsbD_extractLsb']
  by_cases h3 : i < 3
  · simp [h3]
  · have h13 : i - 3 < 13 := by omega
    have hidx : 5 + (i - 3) = i + 2 := by omega
    simp [h3, h13, hidx]

/-- Settles O50: the engine's form and the closed form, each by induction on the range, from the value at the next
address. -/
theorem sfcRangeFormsAgree : Obligations.SfcRangeFormsAgree := by
  refine ⟨sfcEngine_eq_cryptSfc, fun data key a => ⟨length_cryptSfc data key a, fun j b hb => ?_⟩,
    fun key a => sfcState_succ key, fun key a => sfcState_of_offset_zero key⟩
  rw [cryptSfc_getElem?, hb]
  rfl

/-- Settles O58: a range by its closed form. -/
theorem sfcAddressPeriod : Obligations.SfcAddressPeriod := by
  refine ⟨fun key a b => sfcState_congr key, sfcState_period, fun data key a => List.ext_getElem? fun j => ?_⟩
  rw [cryptSfc_getElem?, cryptSfc_getElem?, sfcState_period, BitVec.add_assoc, BitVec.add_assoc,
    BitVec.add_comm (BitVec.ofNat 32 j)]

/-- Settles O53: the two range functions' own laws. -/
theorem cipherIsInvolution : Obligations.CipherIsInvolution := ⟨cryptLin_cryptLin, cryptSfc_cryptSfc⟩

/-- Settles O54: a slice of the output is the output of the slice at the address where it stands. -/
theorem sfcPositionIndependence : Obligations.SfcPositionIndependence := by
  intro r k A0 A1 A2 A3 _ _ _ _
  have haddr : A0 + BitVec.ofNat 32 (A1 - A0).toNat = A1 := by
    rw [BitVec.ofNat_toNat, BitVec.setWidth_eq, BitVec.add_comm, BitVec.sub_add_cancel]
  rw [cryptSfc_drop, cryptSfc_take, haddr]

end Sys2Proof.Machine
end

section
/-! PROOFS. The cipher unit's commands (42_cipher.md sections 3 and 4): each command's exact effect, the effect of the
bytes of a range in each mode, and the SFC invariant of rule R113. -/

namespace Sys2Proof.Machine

/-! ### The bytes of a range (rules R111 to R113) -/

/-- `s` with output bytes appended to its history. -/
def State.emitBytes (s : State) (bs : List U8) : State := { s with events := s.events ++ bs.map Event.outByte }

@[simp] theorem State.emitBytes_nil (s : State) : s.emitBytes [] = s := by simp [State.emitBytes]

/-- Output bytes are emitted one by one. -/
theorem State.emitBytes_cons (s : State) (b : U8) (bs : List U8) :
    s.emitBytes (b :: bs) = (s.emit (.outByte b)).emitBytes bs := by
  simp [State.emitBytes, State.emit]

@[simp] theorem State.emitBytes_events (s : State) (bs : List U8) :
    (s.emitBytes bs).events = s.events ++ bs.map Event.outByte := rfl
@[simp] theorem State.emitBytes_key (s : State) (bs : List U8) : (s.emitBytes bs).key = s.key := rfl

/-- In linear mode `CI.B` computes the range function: it emits the output, advances the LFSR by as many steps, and
nothing else. -/
theorem foldl_afterInstr_ciB_lin (data : List U8) {s : State} (h : s.mode = .lin) :
    (data.map Instr.ciB).foldl State.afterInstr s =
      (s.emitBytes (cryptLin data s.lfsr)).setLfsr (lfsrAdv s.lfsr data.length) := by
  induction data generalizing s with
  | nil => rw [cryptLin_nil, State.emitBytes_nil]; rfl
  | cons b rest ih =>
    rw [List.map_cons, List.foldl_cons, State.afterInstr_ciB_lin b h, ih (s := s.cipherStep b) h, cryptLin_cons,
      State.emitBytes_cons, List.length_cons, ← lfsrAdv_step]
    rfl

/-- In SFC mode with the invariant, `CI.B` emits the byte of its address and moves on to the next address,
with the value there. -/
theorem State.afterInstr_ciB_of_synced {s : State} (b : U8) (h : s.mode = .sfc) (hs : s.lfsr = sfcState s.key s.addr) :
    s.afterInstr (.ciB b) = ((s.emit (.outByte (b ^^^ ks (sfcState s.key s.addr)))).setAddr (s.addr + 1#32)).setLfsr
      (sfcState s.key (s.addr + 1#32)) := by
  rw [State.afterInstr_ciB_sfc b h, ← sfcReload_sfcState, ← hs]
  rfl

/-- In SFC mode with the invariant, `CI.B` computes the range function and keeps the invariant. -/
theorem foldl_afterInstr_ciB_sfc (data : List U8) {s : State} (h : s.mode = .sfc)
    (hs : s.lfsr = sfcState s.key s.addr) : (data.map Instr.ciB).foldl State.afterInstr s =
      ((s.emitBytes (cryptSfc data s.key s.addr)).setAddr (s.addr + BitVec.ofNat 32 data.length)).setLfsr
        (sfcState s.key (s.addr + BitVec.ofNat 32 data.length)) := by
  induction data generalizing s with
  | nil =>
    rw [cryptSfc_nil, State.emitBytes_nil, List.length_nil, BitVec.add_zero, ← hs]
    rfl
  | cons b rest ih =>
    rw [List.map_cons, List.foldl_cons, State.afterInstr_ciB_of_synced b h hs, cryptSfc_cons, State.emitBytes_cons,
      List.length_cons, ← addr_succ_add s.addr rest.length]
    exact ih (s := ((s.emit _).setAddr (s.addr + 1#32)).setLfsr (sfcState s.key (s.addr + 1#32))) h rfl

/-! ### The SFC invariant (rules R113, R155) -/

/-- Every command but `CI.KEY` keeps the invariant: a start command sets it up or leaves SFC mode, a byte carries it to
the next address, and the other units' commands do not touch it. -/
theorem State.SfcSynced.afterInstr {s : State} (hs : s.SfcSynced) {i : Instr} (hi : ∀ k, i ≠ .ciKey k) :
    (s.afterInstr i).SfcSynced := by
  cases i with
  | ciKey k => exact absurd rfl (hi k)
  | ciLin => exact nofun
  | ciSfc a => exact fun _ => rfl
  | ciB b =>
    cases hm : s.mode with
    | lin =>
      rw [State.afterInstr_ciB_lin b hm]
      intro h
      cases hm.symm.trans h
    | sfc =>
      rw [State.afterInstr_ciB_of_synced b hm (hs hm)]
      exact fun _ => rfl
  | _ => exact hs

/-! ### The obligations -/

/-- Settles O22: a step that answers a next state holds the state or performs a command, here no `CI.KEY`. -/
theorem sfcInvariantKeptByEveryStep : Obligations.SfcInvariantKeptByEveryStep := by
  intro s t hs hstep hkey
  obtain rfl | ⟨w, i, hw, hd, rfl⟩ := step_next_cases hstep
  · exact hs
  · exact hs.afterInstr fun k hik => hkey w k hw (hik ▸ hd)

/-- Settles O52: the run of the list is its commands' effect; `CI.SFC` sets up the invariant under which the bytes
compute the range function. -/
theorem sfcCommandListComputesFunction : Obligations.SfcCommandListComputesFunction := by
  refine ⟨fun s k a data hf => ?_, fun s a => ⟨_, exec_ciSfc a s, rfl⟩, fun s b hm hs => ⟨_, exec_eq _ s, ?_⟩⟩
  · have hlen : (Instr.ciKey k :: .ciSfc a :: data.map Instr.ciB).length = data.length + 2 := by simp
    have hrun := runWords_encodeAll (.ciKey k :: .ciSfc a :: data.map Instr.ciB) hf
    rw [hlen, List.foldl_cons, List.foldl_cons, foldl_afterInstr_ciB_sfc data rfl rfl] at hrun
    exact hrun
  · rw [State.afterInstr_ciB_of_synced b hm hs]
    rfl

/-- Settles O51: the run of the list is its commands' effect. -/
theorem linearCommandListComputesFunction : Obligations.LinearCommandListComputesFunction := by
  intro s k data hf
  have hlen : (Instr.ciKey k :: .ciLin :: data.map Instr.ciB).length = data.length + 2 := by simp
  have hrun := runWords_encodeAll (.ciKey k :: .ciLin :: data.map Instr.ciB) hf
  rw [hlen, List.foldl_cons, List.foldl_cons, foldl_afterInstr_ciB_lin data rfl] at hrun
  exact hrun

/-- Settles O46: the word by its format's lemma, the effects by the command's equation in each mode. -/
theorem cipherByteInBothModes : Obligations.CipherByteInBothModes := by
  refine fun s b => ⟨commandWord_imm8 0x33#8 b, fun h => exec_ciB_lin b h, fun h => ?_⟩
  have haddr : BitVec.ofNat 32 ((s.addr.toNat + 1) % 2 ^ 32) = s.addr + 1#32 := by
    apply BitVec.eq_of_toNat_eq
    simp
  rw [haddr, ← sfcOffset_succ, exec_ciB_sfc b h]
  rfl

/-- Settles O44: the words by the format's lemma and the round trip, the effects by the commands' equations. -/
theorem cipherKeyAndLinearStart : Obligations.CipherKeyAndLinearStart := by
  intro s v
  have henc : encode (.ciKey v) = 0x30#8 ++ 0#16 ++ v := commandWord_imm16 0x30#8 v
  exact ⟨henc, henc ▸ decode_encode (.ciKey v), rfl, rfl, fun a => rfl, rfl, rfl, rfl⟩

/-- Settles O45: the word by its definition, its reading by the round trip, the effect by the command's equation. -/
theorem cipherSfcStart : Obligations.CipherSfcStart := by
  refine fun s a => ⟨rfl, decode_encode (.ciSfc a), rfl, fun h => ?_⟩
  rw [exec_ciSfc, sfcState_of_offset_zero s.key h]
  rfl

end Sys2Proof.Machine
end

section
/-! PROOFS. The algebra of the LFSR step (42_cipher.md rule R117). The step is linear and loses nothing; a map that
is linear and commutes with the step is known by its value at 0x0001, whose first 16 steps reach every single bit. That
turns a fact about all values into one evaluation at 0x0001. -/

namespace Sys2Proof.Machine

/-! ### The step (rule R117 (a) to (d)) -/

/-- The step is the CRC-16 divider with a zero data bit. -/
theorem lfsrStep_eq_c16Bit (k : U16) : lfsrStep k = c16Bit k false := (c16Bit_false k).symm

/-- The step is linear over XOR. -/
theorem lfsrStep_xor (x y : U16) : lfsrStep (x ^^^ y) = lfsrStep x ^^^ lfsrStep y := by
  simp only [lfsrStep_eq_c16Bit]
  exact c16Bit_xor x y false false

/-- The step loses nothing. -/
theorem lfsrStep_injective : Function.Injective lfsrStep := by
  intro x y h
  rw [lfsrStep_eq_c16Bit, lfsrStep_eq_c16Bit] at h
  exact c16Bit_injective false h

/-- The multi-step is the iterated step. -/
theorem lfsrAdv_eq_iterate (k : U16) (n : Nat) : lfsrAdv k n = lfsrStep^[n] k := by
  induction n with
  | zero => rfl
  | succ n ih => rw [lfsrAdv_succ, ih, Function.iterate_succ_apply']

/-- Nor does any number of steps lose anything. -/
theorem lfsrAdv_injective (n : Nat) : Function.Injective fun k => lfsrAdv k n := by
  simpa only [lfsrAdv_eq_iterate] using lfsrStep_injective.iterate n

/-- Eight steps are the CRC-16 byte step with a zero byte. -/
theorem lfsrAdv_eight (k : U16) : lfsrAdv k 8 = c16Byte k 0x00#8 := (c16Byte_zero k).symm

/-- The rule's inverse undoes the step: bit 0 tells whether the feedback value was XORed in. -/
theorem lfsrUnstep_lfsrStep (k : U16) : lfsrUnstep (lfsrStep k) = k := by
  have hshift : lfsrStep k ^^^ (if k.getLsbD 15 then Config.lfsrPoly else 0#16) = k <<< 1 := by
    rw [lfsrStep, BitVec.xor_assoc, BitVec.xor_self, BitVec.xor_zero]
  rw [lfsrUnstep, BitVec.and_one_eq_setWidth_ofBool_getLsbD, lfsrStep_getLsbD_zero, hshift]
  apply BitVec.eq_of_getLsbD_eq
  intro i hi
  by_cases h15 : i = 15
  · subst h15
    simp
  · have hlt : 1 + i < 16 := by omega
    have h15' : i < 15 := by omega
    simp [h15', hlt, hi]

/-- It is the inverse on both sides, since the step loses nothing. -/
theorem lfsrStep_lfsrUnstep (k : U16) : lfsrStep (lfsrUnstep k) = k :=
  Function.LeftInverse.rightInverse_of_injective lfsrUnstep_lfsrStep
    (Finite.injective_iff_surjective.2 (Function.LeftInverse.surjective lfsrUnstep_lfsrStep)) k

/-- The step has two fixed points: a value it leaves, a zero byte of CRC-16 leaves too. -/
theorem lfsrStep_eq_self_iff (k : U16) : lfsrStep k = k ↔ k = 0x0000#16 ∨ k = 0xF01F#16 := by
  refine ⟨fun h => (c16Byte_zero_eq_self_iff k).1 ?_, ?_⟩
  · rw [← lfsrAdv_eight, lfsrAdv_eq_iterate]
    exact Function.iterate_fixed h 8
  · rintro (rfl | rfl) <;> decide

/-- A fixed point stays, and no other value comes to it. -/
theorem lfsrAdv_eq_iff_of_fixed {v : U16} (hv : lfsrStep v = v) (k : U16) (n : Nat) : lfsrAdv k n = v ↔ k = v := by
  have hstay : lfsrAdv v n = v := (lfsrAdv_eq_iterate v n).trans (Function.iterate_fixed hv n)
  refine ⟨fun h => lfsrAdv_injective n (h.trans hstay.symm), ?_⟩
  rintro rfl
  exact hstay

/-! ### Maps that are linear and commute with the step -/

/-- A map of LFSR values that is linear over XOR and commutes with the step. -/
structure StepLinear (f : U16 → U16) : Prop where
  map_xor : ∀ x y, f (x ^^^ y) = f x ^^^ f y
  map_step : ∀ x, f (lfsrStep x) = lfsrStep (f x)

theorem StepLinear.map_zero {f : U16 → U16} (hf : StepLinear f) : f 0#16 = 0#16 := by
  rw [← BitVec.xor_self (x := 0#16), hf.map_xor, BitVec.xor_self, BitVec.xor_self]

theorem StepLinear.map_lfsrAdv {f : U16 → U16} (hf : StepLinear f) (k : U16) (n : Nat) :
    f (lfsrAdv k n) = lfsrAdv (f k) n := by
  induction n with
  | zero => rfl
  | succ n ih => rw [lfsrAdv_succ, lfsrAdv_succ, hf.map_step, ih]

theorem stepLinear_id : StepLinear fun k => k := ⟨fun _ _ => rfl, fun _ => rfl⟩

theorem stepLinear_lfsrStep : StepLinear lfsrStep := ⟨lfsrStep_xor, fun _ => rfl⟩

theorem stepLinear_zero : StepLinear fun _ => 0#16 := ⟨fun _ _ => by decide, fun _ => by decide⟩

theorem StepLinear.comp {f g : U16 → U16} (hf : StepLinear f) (hg : StepLinear g) : StepLinear fun k => f (g k) :=
  ⟨fun x y => by rw [hg.map_xor, hf.map_xor], fun x => by rw [hg.map_step, hf.map_step]⟩

theorem StepLinear.xor {f g : U16 → U16} (hf : StepLinear f) (hg : StepLinear g) :
    StepLinear fun k => f k ^^^ g k := by
  refine ⟨fun x y => ?_, fun x => by rw [hf.map_step, hg.map_step, lfsrStep_xor]⟩
  rw [hf.map_xor, hg.map_xor]
  ac_rfl

theorem stepLinear_lfsrAdv (n : Nat) : StepLinear fun k => lfsrAdv k n := by
  induction n with
  | zero => exact stepLinear_id
  | succ n ih => exact stepLinear_lfsrStep.comp ih

/-! ### A value as a sum of steps -/

/-- The sum of the steps of `k` that the low `n` bits of `a` select. -/
def lfsrSum (a k : U16) : Nat → U16
  | 0 => 0#16
  | n + 1 => lfsrSum a k n ^^^ (if a.getLsbD n then lfsrAdv k n else 0#16)

/-- The sum of the steps of `k` that the bits of `a` select: the product of `a` and `k` as polynomials, modulo
x^16 + x^12 + x^5 + 1. -/
def lfsrMul (a k : U16) : U16 := lfsrSum a k 16

theorem stepLinear_lfsrSum (a : U16) (n : Nat) : StepLinear fun k => lfsrSum a k n := by
  induction n with
  | zero => exact stepLinear_zero
  | succ n ih =>
    refine ih.xor ?_
    cases a.getLsbD n with
    | true => exact stepLinear_lfsrAdv n
    | false => exact stepLinear_zero

theorem stepLinear_lfsrMul (a : U16) : StepLinear (lfsrMul a) := stepLinear_lfsrSum a 16

/-- The steps of 0x0001 select the bits of `a` themselves. -/
theorem lfsrSum_one_getLsbD (a : U16) {n : Nat} (hn : n ≤ 16) (i : Nat) :
    (lfsrSum a 0x0001#16 n).getLsbD i = (decide (i < n) && a.getLsbD i) := by
  have hbit : ∀ n < 16, lfsrAdv 0x0001#16 n = BitVec.twoPow 16 n := by decide
  induction n with
  | zero => simp [lfsrSum]
  | succ n ih =>
    have hlt : n < 16 := by omega
    rw [lfsrSum, BitVec.getLsbD_xor, ih (by omega), hbit n hlt]
    by_cases hi : i = n
    · subst hi
      cases a.getLsbD i <;> simp [hlt]
    · have hlt_iff : i < n + 1 ↔ i < n := by omega
      have hni : n ≠ i := Ne.symm hi
      cases a.getLsbD n <;> simp [hlt_iff, hni]

/-- Every value is a sum of steps of 0x0001. -/
theorem lfsrMul_one (a : U16) : lfsrMul a 0x0001#16 = a := by
  apply BitVec.eq_of_getLsbD_eq
  intro i hi
  rw [lfsrMul, lfsrSum_one_getLsbD a (by decide), decide_eq_true hi, Bool.true_and]

theorem StepLinear.map_lfsrSum {f : U16 → U16} (hf : StepLinear f) (a k : U16) (n : Nat) :
    f (lfsrSum a k n) = lfsrSum a (f k) n := by
  induction n with
  | zero => exact hf.map_zero
  | succ n ih => rw [lfsrSum, lfsrSum, hf.map_xor, ih, apply_ite f, hf.map_lfsrAdv, hf.map_zero]

/-- A map that is linear and commutes with the step is known by its value at 0x0001. -/
theorem StepLinear.eq_lfsrMul {f : U16 → U16} (hf : StepLinear f) (k : U16) : f k = lfsrMul k (f 0x0001#16) := by
  rw [lfsrMul, ← hf.map_lfsrSum, ← lfsrMul, lfsrMul_one]

/-- Two such maps that agree at 0x0001 agree everywhere. -/
theorem StepLinear.eq_of_eq_at_one {f g : U16 → U16} (hf : StepLinear f) (hg : StepLinear g)
    (h : f 0x0001#16 = g 0x0001#16) (k : U16) : f k = g k := by
  rw [hf.eq_lfsrMul, hg.eq_lfsrMul, h]

/-- Steps of any value by way of the steps of 0x0001. -/
theorem lfsrAdv_eq_lfsrMul (k : U16) (n : Nat) : lfsrAdv k n = lfsrMul (lfsrAdv 0x0001#16 n) k :=
  (stepLinear_lfsrAdv n).eq_of_eq_at_one (stepLinear_lfsrMul _) (lfsrMul_one _).symm k

/-- Steps of 0x0001 in equal groups. -/
theorem lfsrAdv_one_mul (m n : Nat) : lfsrAdv 0x0001#16 (m * n) = (lfsrMul (lfsrAdv 0x0001#16 m))^[n] 0x0001#16 := by
  induction n with
  | zero => rfl
  | succ n ih => rw [Nat.mul_succ, lfsrAdv_add, ih, lfsrAdv_eq_lfsrMul _ m, Function.iterate_succ_apply']

/-! ### The period (rule R117 (e)): 32767 = 7 * 31 * 151 -/

/-- 0x0001 after each of the three largest divisors of 32767, 7 * 31, 7 * 151 and 31 * 151 steps, and after 32767. -/
theorem lfsrAdv_one_values : lfsrAdv 0x0001#16 217 = 0x48E3#16 ∧ lfsrAdv 0x0001#16 1057 = 0xF2AF#16 ∧
    lfsrAdv 0x0001#16 4681 = 0x2C42#16 ∧ lfsrAdv 0x0001#16 32767 = 0x0001#16 := by
  have h151 : lfsrAdv 0x0001#16 151 = 0xF008#16 := by decide +kernel
  have h217 : lfsrAdv 0x0001#16 217 = 0x48E3#16 := by decide +kernel
  refine ⟨h217, ?_, ?_, ?_⟩
  · rw [show 1057 = 151 * 7 from rfl, lfsrAdv_one_mul, h151]
    decide +kernel
  · rw [show 4681 = 151 * 31 from rfl, lfsrAdv_one_mul, h151]
    decide +kernel
  · rw [show 32767 = 217 * 151 from rfl, lfsrAdv_one_mul, h217]
    decide +kernel

/-- A prime factor is still in a divisor that does not divide the rest. -/
theorem prime_dvd_of_not_dvd {p m n : Nat} (hp : p.Prime) (h : m ∣ p * n) (hn : ¬ m ∣ n) : p ∣ m := by
  by_contra hpm
  exact hn ((hp.coprime_iff_not_dvd.2 hpm).symm.dvd_of_dvd_mul_left h)

/-- A divisor of 32767 that divides none of the three largest proper divisors is 32767: it has all three primes. -/
theorem eq_of_dvd_period {m : Nat} (h : m ∣ 32767) (h217 : ¬ m ∣ 217) (h1057 : ¬ m ∣ 1057) (h4681 : ¬ m ∣ 4681) :
    m = 32767 := by
  have h151 := prime_dvd_of_not_dvd (p := 151) (by norm_num) h h217
  have h31 := prime_dvd_of_not_dvd (p := 31) (by norm_num) h h1057
  have h7 := prime_dvd_of_not_dvd (p := 7) (by norm_num) h h4681
  have h217m : 7 * 31 ∣ m := Nat.Coprime.mul_dvd_of_dvd_of_dvd (by norm_num) h7 h31
  exact Nat.dvd_antisymm h (Nat.Coprime.mul_dvd_of_dvd_of_dvd (m := 7 * 31) (by norm_num) h217m h151)

/-- A value that returns after `n` steps is a fixed point, if some `q` makes `x + 1` of `x^n + 1`. -/
theorem lfsrStep_eq_self_of_lfsrAdv_eq {k q : U16} {n : Nat}
    (hq : lfsrMul q (lfsrAdv 0x0001#16 n ^^^ 0x0001#16) = 0x0003#16) (h : lfsrAdv k n = k) : lfsrStep k = k := by
  have hlin : StepLinear fun k => lfsrMul q (lfsrAdv k n ^^^ k) :=
    (stepLinear_lfsrMul q).comp ((stepLinear_lfsrAdv n).xor stepLinear_id)
  have hone : lfsrStep 0x0001#16 ^^^ 0x0001#16 = 0x0003#16 := by decide
  have hk := hlin.eq_of_eq_at_one (stepLinear_lfsrStep.xor stepLinear_id) (hq.trans hone.symm) k
  rw [h, BitVec.xor_self, (stepLinear_lfsrMul q).map_zero] at hk
  exact BitVec.xor_eq_zero_iff.1 hk.symm

/-- Every value returns after 32767 steps. -/
theorem lfsrAdv_period (k : U16) : lfsrAdv k 32767 = k := by
  obtain ⟨-, -, -, hone⟩ := lfsrAdv_one_values
  exact (stepLinear_lfsrAdv 32767).eq_of_eq_at_one stepLinear_id hone k

/-- A value that is no fixed point returns after none of the three largest divisors of 32767, hence not before 32767. -/
theorem minimalPeriod_lfsrStep {k : U16} (hk : lfsrStep k ≠ k) : Function.minimalPeriod lfsrStep k = 32767 := by
  obtain ⟨h217, h1057, h4681, -⟩ := lfsrAdv_one_values
  have hdvd {n : Nat} : Function.minimalPeriod lfsrStep k ∣ n ↔ lfsrAdv k n = k := by
    rw [← Function.isPeriodicPt_iff_minimalPeriod_dvd, lfsrAdv_eq_iterate]
    rfl
  have hall : Function.minimalPeriod lfsrStep k ∣ 32767 := hdvd.2 (lfsrAdv_period k)
  have hn217 : ¬ Function.minimalPeriod lfsrStep k ∣ 217 := fun h =>
    hk (lfsrStep_eq_self_of_lfsrAdv_eq (q := 0x52D1#16) (by rw [h217]; decide +kernel) (hdvd.1 h))
  have hn1057 : ¬ Function.minimalPeriod lfsrStep k ∣ 1057 := fun h =>
    hk (lfsrStep_eq_self_of_lfsrAdv_eq (q := 0x05CA#16) (by rw [h1057]; decide +kernel) (hdvd.1 h))
  have hn4681 : ¬ Function.minimalPeriod lfsrStep k ∣ 4681 := fun h =>
    hk (lfsrStep_eq_self_of_lfsrAdv_eq (q := 0x1EA7#16) (by rw [h4681]; decide +kernel) (hdvd.1 h))
  exact eq_of_dvd_period hall hn217 hn1057 hn4681

/-- Within one period no value repeats. -/
theorem lfsrAdv_inj_of_lt {k : U16} (hk : lfsrStep k ≠ k) {m n : Nat} (hm : m < 32767) (hn : n < 32767) :
    lfsrAdv k m = lfsrAdv k n ↔ m = n := by
  rw [lfsrAdv_eq_iterate, lfsrAdv_eq_iterate]
  exact Function.iterate_eq_iterate_iff_of_lt_minimalPeriod (by rwa [minimalPeriod_lfsrStep hk])
    (by rwa [minimalPeriod_lfsrStep hk])

/-! ### The two cycles (rule R117 (e)) -/

/-- The product with 0xF01F tells a value's parity, 0x0000 when even and 0xF01F when odd: no step changes it. -/
theorem lfsrMul_fixed_lfsrAdv (k : U16) (n : Nat) : lfsrMul 0xF01F#16 (lfsrAdv k n) = lfsrMul 0xF01F#16 k := by
  have hfixed : lfsrStep (lfsrMul 0xF01F#16 k) = lfsrMul 0xF01F#16 k :=
    (stepLinear_lfsrStep.comp (stepLinear_lfsrMul _)).eq_of_eq_at_one (stepLinear_lfsrMul _) (by decide) k
  rw [(stepLinear_lfsrMul _).map_lfsrAdv]
  exact (lfsrAdv_eq_iff_of_fixed hfixed _ n).2 rfl

/-- The values on the cycle of `k`. -/
def lfsrCycle (k : U16) : Finset U16 := (Finset.range 32767).image (lfsrAdv k)

theorem mem_lfsrCycle {k v : U16} : v ∈ lfsrCycle k ↔ ∃ n, n < 32767 ∧ lfsrAdv k n = v := by
  simp [lfsrCycle]

/-- A cycle has a value for each step of the period. -/
theorem card_lfsrCycle {k : U16} (hk : lfsrStep k ≠ k) : (lfsrCycle k).card = 32767 := by
  rw [lfsrCycle, Finset.card_image_of_injOn, Finset.card_range]
  intro m hm n hn h
  exact (lfsrAdv_inj_of_lt hk (Finset.mem_range.1 hm) (Finset.mem_range.1 hn)).1 h

/-- The cycles of 0xFFFF and 0x0001 are two: their parities differ. -/
theorem lfsrAdv_ffff_ne_lfsrAdv_one (m n : Nat) : lfsrAdv 0xFFFF#16 m ≠ lfsrAdv 0x0001#16 n := by
  intro h
  have hparity := congrArg (lfsrMul 0xF01F#16) h
  rw [lfsrMul_fixed_lfsrAdv, lfsrMul_fixed_lfsrAdv] at hparity
  exact absurd hparity (by decide)

theorem disjoint_lfsrCycle : Disjoint (lfsrCycle 0xFFFF#16) (lfsrCycle 0x0001#16) := by
  rw [Finset.disjoint_left]
  intro v hv hv'
  obtain ⟨m, -, rfl⟩ := mem_lfsrCycle.1 hv
  obtain ⟨n, -, h⟩ := mem_lfsrCycle.1 hv'
  exact lfsrAdv_ffff_ne_lfsrAdv_one m n h.symm

/-- No cycle of a moving value comes to a fixed point. -/
theorem lfsrStep_ne_self_of_mem_lfsrCycle {k : U16} (hk : lfsrStep k ≠ k) {v : U16} (hv : v ∈ lfsrCycle k) :
    lfsrStep v ≠ v := by
  obtain ⟨n, -, rfl⟩ := mem_lfsrCycle.1 hv
  intro h
  rw [← lfsrAdv_succ, ← lfsrAdv_step] at h
  exact hk (lfsrAdv_injective n h)

/-- The values that the step moves. -/
def lfsrMoving : Finset U16 := {0x0000#16, 0xF01F#16}ᶜ

theorem mem_lfsrMoving {v : U16} : v ∈ lfsrMoving ↔ lfsrStep v ≠ v := by
  simp [lfsrMoving, lfsrStep_eq_self_iff]

theorem card_lfsrMoving : lfsrMoving.card = 65534 := by
  rw [lfsrMoving, Finset.card_compl, ← FinEnum.card_eq_fintypeCard, FinEnum.card_bitVec, Finset.card_pair (by decide)]
  rfl

/-- The two cycles are 65534 values that the step moves, hence all of them. -/
theorem lfsrCycle_union_lfsrCycle : lfsrCycle 0xFFFF#16 ∪ lfsrCycle 0x0001#16 = lfsrMoving := by
  have hffff : lfsrStep 0xFFFF#16 ≠ 0xFFFF#16 := by decide
  have hone : lfsrStep 0x0001#16 ≠ 0x0001#16 := by decide
  apply Finset.eq_of_subset_of_card_le
  · intro v hv
    exact mem_lfsrMoving.2 ((Finset.mem_union.1 hv).elim (lfsrStep_ne_self_of_mem_lfsrCycle hffff)
      (lfsrStep_ne_self_of_mem_lfsrCycle hone))
  · rw [card_lfsrMoving, Finset.card_union_of_disjoint disjoint_lfsrCycle, card_lfsrCycle hffff, card_lfsrCycle hone]

/-! ### The obligations -/

/-- Settles O56: the step as the CRC-16 divider's carries (a), (c) and (d). -/
theorem lfsrStepAlgebra : Obligations.LfsrStepAlgebra :=
  ⟨lfsrStep_xor, fun k => ⟨lfsrUnstep_lfsrStep k, lfsrStep_lfsrUnstep k⟩, fun _ => rfl,
    fun k => ⟨lfsrStep_eq_c16Bit k, lfsrAdv_eight k⟩, lfsrStep_eq_self_iff⟩

/-- Settles O57: the period by the minimal period, the two cycles by counting their values. -/
theorem lfsrCycleStructure : Obligations.LfsrCycleStructure := by
  refine ⟨fun k h0 hf => ?_, fun n => lfsrAdv_ffff_ne_lfsrAdv_one n 0⟩
  have hk : lfsrStep k ≠ k := fun h => ((lfsrStep_eq_self_iff k).1 h).elim h0 hf
  refine ⟨fun n => ?_, ?_, fun m n hm hn h => (lfsrAdv_inj_of_lt hk (by omega) (by omega)).1 h⟩
  · rw [← minimalPeriod_lfsrStep hk, ← Function.isPeriodicPt_iff_minimalPeriod_dvd, lfsrAdv_eq_iterate]
    rfl
  · rwa [← mem_lfsrMoving, ← lfsrCycle_union_lfsrCycle, Finset.mem_union, mem_lfsrCycle, mem_lfsrCycle] at hk

end Sys2Proof.Machine
end

section
/-! PROOFS. What the LFSR value and the keystream say of each other (42_cipher.md rules R116, R119): the two values that
stand for a whole range, and how many keystream bytes tell two values apart. -/

namespace Sys2Proof.Machine

/-! ### The degenerate values (rule R119) -/

/-- From a fixed point a linear range meets one keystream byte only. -/
theorem cryptLin_of_fixed {v : U16} (hv : lfsrStep v = v) (data : List U8) :
    cryptLin data v = data.map (· ^^^ ks v) := by
  induction data with
  | nil => rfl
  | cons b rest ih => rw [cryptLin_cons, hv, ih, List.map_cons]

/-- A fixed point stands for a whole block. -/
theorem sfcState_eq_iff_of_fixed {v : U16} (hv : lfsrStep v = v) (key : U16) (a : Addr) :
    sfcState key a = v ↔ sfcBlockKey key a = v := lfsrAdv_eq_iff_of_fixed hv _ _

/-- Two words agree when their bits 2:0 and 15:3 do. -/
theorem eq_iff_low3_high13 {x y : U16} :
    x = y ↔ x.extractLsb' 0 3 = y.extractLsb' 0 3 ∧ x.extractLsb' 3 13 = y.extractLsb' 3 13 := by
  have hparts (x : U16) : x.extractLsb' 3 13 ++ x.extractLsb' 0 3 = x :=
    (BitVec.extractLsb'_append_extractLsb'_eq_extractLsb' (by rfl)).trans BitVec.extractLsb'_eq_self
  refine ⟨?_, fun ⟨hlow, hhigh⟩ => ?_⟩
  · rintro rfl
    exact ⟨rfl, rfl⟩
  · rw [← hparts x, ← hparts y, hlow, hhigh]

/-- The block key has a value when the key's bits 2:0 are the value's, and the key's bits 15:3 differ from address bits
17:5 by the value's. -/
theorem sfcBlockKey_eq_iff (key v : U16) (a : Addr) : sfcBlockKey key a = v ↔
    key.extractLsb' 0 3 = v.extractLsb' 0 3 ∧ key.extractLsb' 3 13 ^^^ a.extractLsb' 5 13 = v.extractLsb' 3 13 := by
  have hlow : (a.extractLsb' 5 13 ++ 0#3).extractLsb' 0 3 = 0#3 := BitVec.extractLsb'_append_eq_right
  have hhigh : (a.extractLsb' 5 13 ++ 0#3).extractLsb' 3 13 = a.extractLsb' 5 13 := BitVec.extractLsb'_append_eq_left
  rw [eq_iff_low3_high13, sfcBlockKey_eq, BitVec.extractLsb'_xor, BitVec.extractLsb'_xor, hlow, hhigh, BitVec.xor_zero]

/-- The block start as a number. -/
theorem toNat_sfcBlockStart (a : Addr) : (sfcBlockStart a).toNat = a.toNat / 32 * 32 := by
  have hshift : sfcBlockStart a = (a >>> 5) <<< 5 := by
    apply BitVec.eq_of_getLsbD_eq
    intro i hi
    rw [sfcBlockStart_getLsbD a hi]
    by_cases h5 : 5 ≤ i
    · simp [h5, hi]
    · simp [h5]
  rw [hshift, BitVec.toNat_shiftLeft, BitVec.toNat_ushiftRight, Nat.shiftRight_eq_div_pow, Nat.shiftLeft_eq]
  omega

/-- Address bits 17:5 are those of 0x3F80 in the block there and in every block a multiple of 0x40000 away. -/
theorem blockBits_eq_iff (a : Addr) : a.extractLsb' 5 13 = 0x01FC#13 ↔
    ∃ n : Nat, sfcBlockStart a = 0x00003F80#32 + BitVec.ofNat 32 (n * 0x40000) := by
  have hbits : a.extractLsb' 5 13 = 0x01FC#13 ↔ a.toNat / 32 % 2 ^ 13 = 508 := by
    rw [← toNat_blockBits]
    exact BitVec.toNat_inj.symm
  have hstart (n : Nat) : sfcBlockStart a = 0x00003F80#32 + BitVec.ofNat 32 (n * 0x40000) ↔
      a.toNat / 32 * 32 = (0x3F80 + n * 0x40000 % 2 ^ 32) % 2 ^ 32 := by
    rw [← BitVec.toNat_inj, toNat_sfcBlockStart, BitVec.toNat_add, BitVec.toNat_ofNat, BitVec.toNat_ofNat,
      Nat.mod_eq_of_lt (a := 0x3F80) (by decide)]
  simp only [hbits, hstart]
  refine ⟨fun h => ⟨a.toNat / 0x40000, ?_⟩, fun ⟨n, h⟩ => ?_⟩
  · have hlt := a.isLt
    omega
  · omega

/-! ### What the keystream tells of the LFSR (rule R116) -/

/-- A value whose keystream is 0 for 9 bytes is 0: its high byte passes through bit 0 and only shifts. -/
theorem eq_zero_of_ks_eq_zero {k : U16} (h : ∀ j ≤ 8, ks (lfsrAdv k j) = 0#8) : k = 0#16 := by
  have hlow (j : Nat) (hj : j ≤ 8) {i : Nat} (hi : i < 8) : (lfsrAdv k j).getLsbD i = false := by
    have hbit := congrArg (·.getLsbD i) (h j hj)
    simpa [ks, hi] using hbit
  have htop (j : Nat) (hj : j < 8) : (lfsrAdv k j).getLsbD 15 = false := by
    rw [← lfsrStep_getLsbD_zero, ← lfsrAdv_succ]
    exact hlow (j + 1) hj (by decide)
  have hshift (j : Nat) (hj : j ≤ 8) : lfsrAdv k j = k <<< j := by
    induction j with
    | zero => exact (BitVec.shiftLeft_zero k).symm
    | succ j ih =>
      rw [lfsrAdv_succ, lfsrStep_eq_ite, htop j hj, ih (by omega), BitVec.shiftLeft_add]
      rfl
  apply BitVec.eq_of_getLsbD_eq
  intro i hi
  rw [BitVec.getLsbD_zero]
  by_cases h8 : i < 8
  · exact hlow 0 (by decide) h8
  · have hbit := htop (15 - i) (by omega)
    have hidx : 15 - (15 - i) = i := by omega
    have hge : ¬ 15 < 15 - i := by omega
    rw [hshift (15 - i) (by omega), BitVec.getLsbD_shiftLeft, hidx] at hbit
    simpa [hge] using hbit

/-- Nine keystream bytes tell the LFSR value, by linearity. -/
theorem eq_of_ks_eq {k k' : U16} (h : ∀ j ≤ 8, ks (lfsrAdv k j) = ks (lfsrAdv k' j)) : k = k' := by
  refine BitVec.xor_eq_zero_iff.1 (eq_zero_of_ks_eq_zero fun j hj => ?_)
  have hxor (x y : U16) : ks (x ^^^ y) = ks x ^^^ ks y := BitVec.extractLsb'_xor
  rw [(stepLinear_lfsrAdv j).map_xor, hxor, h j hj, BitVec.xor_self]

/-! ### The obligations -/

/-- Settles O59: the two values are the step's fixed points, so they stand as long as the LFSR is not loaded, and only a
load brings them. -/
theorem degenerateLfsrValues : Obligations.DegenerateLfsrValues := by
  have h0 : lfsrStep 0x0000#16 = 0x0000#16 := (lfsrStep_eq_self_iff _).2 (.inl rfl)
  have hf : lfsrStep 0xF01F#16 = 0xF01F#16 := (lfsrStep_eq_self_iff _).2 (.inr rfl)
  refine ⟨fun k n => ⟨lfsrAdv_eq_iff_of_fixed h0 k n, lfsrAdv_eq_iff_of_fixed hf k n⟩, rfl, rfl,
    fun data => ⟨?_, cryptLin_of_fixed hf data⟩, fun s => ⟨_, exec_ciLin s, Iff.rfl, Iff.rfl⟩,
    fun key a => ⟨(sfcState_eq_iff_of_fixed h0 key a).symm, (sfcState_eq_iff_of_fixed hf key a).symm, ?_, ?_⟩,
    fun a => ⟨?_, ?_⟩⟩
  · have hks : ks 0x0000#16 = 0#8 := rfl
    simp [cryptLin_of_fixed h0, hks]
  · rw [sfcState_eq_iff_of_fixed h0, sfcBlockKey_eq_iff]
    exact and_congr_right fun _ => BitVec.xor_eq_zero_iff
  · rw [sfcState_eq_iff_of_fixed hf, sfcBlockKey_eq_iff]
    exact Iff.rfl
  · rw [Ne, sfcState_eq_iff_of_fixed h0, sfcBlockKey_eq_iff]
    exact fun ⟨hlow, _⟩ => absurd hlow (by decide)
  · have hkey : (0xF01F#16).extractLsb' 3 13 = (0xFFFF#16).extractLsb' 3 13 ^^^ 0x01FC#13 := by decide
    rw [sfcState_eq_iff_of_fixed hf, sfcBlockKey_eq_iff, hkey, BitVec.xor_right_inj, ← blockBits_eq_iff]
    exact and_iff_right (by decide)

/-- Settles O55: the commands' effect on each piece is the range function's; zero bytes show the keystream itself, and
nine of them tell the restarted LFSR from the continued one. -/
theorem linearChunking : Obligations.LinearChunking := by
  refine ⟨cryptLin_append, fun s a b h => ⟨_, _, execAll_eq _ s, ?_, execAll_eq _ s, ?_⟩, fun a k hk => ?_⟩
  · rw [← List.map_append, foldl_afterInstr_ciB_lin _ h]
    rfl
  · rw [List.foldl_cons, List.foldl_append, foldl_afterInstr_ciB_lin a rfl, List.foldl_cons,
      foldl_afterInstr_ciB_lin b rfl]
    simp [State.afterInstr]
  · refine ⟨List.replicate 9 0x00#8, fun h => hk ?_⟩
    rw [cryptLin_append, List.append_cancel_left_eq] at h
    refine (eq_of_ks_eq fun j hj => ?_).symm
    have hbyte := congrArg (·[j]?) h
    have hlt : j < 9 := by omega
    simpa only [cryptLin_getElem?, List.getElem?_replicate, hlt, if_true, Option.map_some, Option.some_inj,
      BitVec.zero_xor] using hbyte

end Sys2Proof.Machine
end

section
/-! PROOFS. Exceptions (60_exceptions.md rules R130, R131): no command raises one, and the fault of an illegal word is a
state that every further step keeps. -/

namespace Sys2Proof.Machine

/-! ### The state that a fault leaves (rule R131) -/

/-- A step that answers a fault only records it. -/
theorem stateAfter_of_fault {s : State} {f : Fault} (h : step s = .fault f) : stateAfter s = s.recordFault f := by
  simp [stateAfter, h]

/-- Recording the fault that is recorded already changes nothing. -/
theorem State.recordFault_of_fault_eq {s : State} {f : Fault} (h : s.fault = some f) : s.recordFault f = s := by
  rw [State.recordFault, ← h]

/-- No step changes a faulted state. -/
theorem stateAfter_faulted {s : State} {f : Fault} (h : s.fault = some f) : stateAfter s = s :=
  (stateAfter_of_fault (step_faulted h)).trans (State.recordFault_of_fault_eq h)

/-- From the step that answers a fault on, every step leaves the same state. -/
theorem iterate_stateAfter_of_fault {s : State} {f : Fault} (h : step s = .fault f) (n : Nat) :
    stateAfter^[n + 1] s = s.recordFault f := by
  rw [Function.iterate_succ_apply, stateAfter_of_fault h]
  exact Function.iterate_fixed (stateAfter_faulted (s.recordFault_fault f)) n

/-! ### The obligations -/

/-- Settles O12: the step at the word faults, and the state with that fault recorded is a fixed point of the steps. -/
theorem illegalWordFaultsWithoutEffect : Obligations.IllegalWordFaultsWithoutEffect := by
  intro s w e hf hw hd
  have hstep : step s = .fault (.illegalCommand w s.ci) := step_illegal hf hw hd
  refine ⟨hstep, stateAfter_of_fault hstep, fun n => ⟨iterate_stateAfter_of_fault hstep n, ?_⟩⟩
  rw [iterate_stateAfter_of_fault hstep]
  exact step_faulted (s.recordFault_fault _)

/-- Settles O11, by the one outcome of every command and its frame. -/
theorem everyCommandCompletes : Obligations.EveryCommandCompletes :=
  fun i s => ⟨s.afterInstr i, exec_eq i s, s.afterInstr_cmds i, s.afterInstr_ci i, s.afterInstr_fault i⟩

end Sys2Proof.Machine
end

section
/-! PROOFS. Reset, faults and interrupted work (70_reset_and_hazards.md): what the host can do to a faulted block
(rules R135, R150), a `CI.KEY` in mid-range (rule R155) and how a range is resumed (rule R153). -/

namespace Sys2Proof.Machine

/-! ### A faulted block (rules R135, R150) -/

/-- Without a reset the host's acts on a faulted block only lengthen the list of presented words. -/
theorem acts_of_fault {s : State} {f : Fault} (hf : s.fault = some f) {as : List HostAct} (hr : HostAct.reset ∉ as) :
    ∃ ws, s.acts as = s.present ws := by
  induction as generalizing s with
  | nil => exact ⟨[], by simp [State.acts, State.present]⟩
  | cons a rest ih =>
    obtain ⟨ha, hrest⟩ := List.ne_and_not_mem_of_not_mem_cons hr
    cases a with
    | present ws =>
      obtain ⟨ws', h⟩ := ih (s := s.present ws) hf hrest
      refine ⟨ws ++ ws', ?_⟩
      calc s.acts (.present ws :: rest) = (s.present ws).present ws' := h
        _ = s.present (ws ++ ws') := by simp [State.present]
    | perform =>
      have hstay : s.acts (.perform :: rest) = s.acts rest := congrArg (·.acts rest) (stateAfter_faulted hf)
      rw [hstay]
      exact ih hf hrest
    | reset => exact absurd rfl ha

/-! ### `CI.B` by the place of the next address (rules R111, R155) -/

/-- Inside a block `CI.B` in SFC mode steps the LFSR and does not read the key. -/
theorem State.afterInstr_ciB_inside_block {s : State} (b : U8) (h : s.mode = .sfc)
    (ho : sfcOffset (s.addr + 1#32) ≠ 0) :
    s.afterInstr (.ciB b) = (s.cipherStep b).setAddr (s.addr + 1#32) := by
  have hreload (k : U16) : sfcReload s.key (s.addr + 1#32) k = k := if_neg ho
  rw [State.afterInstr_ciB_sfc b h]
  exact congrArg ((s.cipherStep b).setAddr (s.addr + 1#32)).setLfsr (hreload _)

/-- At the end of a block `CI.B` in SFC mode loads the next block's key, made from the key of that moment. -/
theorem State.afterInstr_ciB_end_of_block {s : State} (b : U8) (h : s.mode = .sfc)
    (ho : sfcOffset (s.addr + 1#32) = 0) :
    s.afterInstr (.ciB b) =
      ((s.cipherStep b).setAddr (s.addr + 1#32)).setLfsr (sfcBlockKey s.key (s.addr + 1#32)) := by
  have hreload (k : U16) : sfcReload s.key (s.addr + 1#32) k = sfcBlockKey s.key (s.addr + 1#32) := if_pos ho
  rw [State.afterInstr_ciB_sfc b h]
  exact congrArg ((s.cipherStep b).setAddr (s.addr + 1#32)).setLfsr (hreload _)

/-- In linear mode and inside a block `CI.B` does not read the key. -/
theorem State.afterInstr_ciB_setKey {s : State} (k : U16) (b : U8)
    (h : s.mode = .lin ∨ (s.mode = .sfc ∧ sfcOffset (s.addr + 1#32) ≠ 0)) :
    (s.setKey k).afterInstr (.ciB b) = (s.afterInstr (.ciB b)).setKey k := by
  obtain hm | ⟨hm, ho⟩ := h
  · rw [State.afterInstr_ciB_lin b hm, State.afterInstr_ciB_lin (s := s.setKey k) b hm]
    rfl
  · rw [State.afterInstr_ciB_inside_block b hm ho, State.afterInstr_ciB_inside_block (s := s.setKey k) b hm ho]
    rfl

/-! ### The obligations -/

/-- Settles O13: reset is one fixed state; a faulted block that is not reset stays as it is but for the presented
words. -/
theorem resetIsOnlyWayOutOfFault : Obligations.ResetIsOnlyWayOutOfFault := by
  refine ⟨fun _ => ⟨rfl, rfl, rfl, rfl, rfl, rfl, rfl, rfl⟩, fun s f as hf hr => ?_⟩
  obtain ⟨ws, h⟩ := acts_of_fault hf hr
  rw [h]
  exact ⟨s.present_registers ws, rfl, rfl, hf, step_faulted hf⟩

/-- Settles O23: only at the end of a block does `CI.B` read the key, and there it brings the invariant back, the block
key being the value at a block's start. -/
theorem keyRewrittenInMidRange : Obligations.KeyRewrittenInMidRange := by
  refine fun s k b => ⟨fun h => ⟨_, exec_eq _ s, ?_⟩, fun hm ho => ⟨_, execAll_eq _ s, ?_⟩⟩
  · rw [execAll_eq]
    exact congrArg Host.Outcome.next (State.afterInstr_ciB_setKey k b h)
  · have heff := State.afterInstr_ciB_end_of_block (s := s.afterInstr (.ciKey k)) b hm ho
    rw [List.foldl_cons, List.foldl_cons, List.foldl_nil, heff]
    exact ⟨rfl, rfl, rfl, fun _ => (sfcState_of_offset_zero k ho).symm⟩

/-- Settles O24: a load brings an accumulator back, `CI.SFC` the LFSR value that the invariant names, and `CI.LIN` the
value that the bytes done have stepped the LFSR to. -/
theorem interruptedWorkIsResumed : Obligations.InterruptedWorkIsResumed := by
  refine ⟨fun s u => ⟨_, _, exec_c16Rd s, rfl, exec_c16Ld s.c16 u, rfl⟩,
    fun s u => ⟨_, _, exec_c32Rd s, rfl, exec_c32Ld s.c32 u, rfl⟩,
    fun s u hm hs hk => ⟨_, exec_ciSfc s.addr u, hm.symm, rfl, ?_, hk⟩,
    fun s u key done => ⟨_, _, execAll_eq _ s, execAll_eq _ u, ?_⟩⟩
  · rw [State.setLfsr_lfsr, hk, hs hm]
  · have hdone := foldl_afterInstr_ciB_lin done (s := (s.afterInstr (.ciKey key)).afterInstr .ciLin) rfl
    simp only [List.foldl_cons, hdone]
    exact ⟨rfl, rfl, rfl⟩

end Sys2Proof.Machine
end

section
/-! PROOFS. The decoder and the encoder undo each other (95_test_vectors.md VE-3): what a command's argument is when the
command was built from an argument. With it the listed words (VE-1, VE-2) and the block with no command left. -/

namespace Sys2Proof

/-! ### An operand widened again (rules R51, R53) -/

/-- A value whose bits from `k` on are zero is its low `k` bits widened again. -/
theorem setWidth_extractLsb'_low {m k : Nat} {x : BitVec (m + k)} (h : x.extractLsb' k m = 0#m) :
    (x.extractLsb' 0 k).setWidth (m + k) = x := by
  calc (x.extractLsb' 0 k).setWidth (m + k)
      = x.extractLsb' k m ++ x.extractLsb' 0 k := by rw [h, BitVec.setWidth_eq_append (Nat.le_add_left k m)]; simp
    _ = x := (BitVec.extractLsb'_append_extractLsb'_eq_extractLsb' (by simp)).trans BitVec.extractLsb'_eq_self

/-- An argument whose must-be-zero bits are zero is the argument of the command built from it. -/
theorem Mnemonic.argument_build {m : Mnemonic} {arg : U32} (h : arg &&& m.format.mustBeZero = 0#32) :
    (m.build arg).argument = arg := by
  cases m with
  | c16Rd | c32Rd | ciLin => exact ((mustBeZero_N_iff arg).1 h).symm
  | c16B | c32B | ciB => exact setWidth_extractLsb'_low (m := 24) ((mustBeZero_B_iff arg).1 h)
  | c16Ld | ciKey => exact setWidth_extractLsb'_low (m := 16) ((mustBeZero_H_iff arg).1 h)
  | c32Ld | ciSfc => rfl

/-- Encoding what a word decodes to gives the word back. -/
theorem encode_of_decode {w : CommandWord} {i : Instr} (h : decode w = .ok i) : encode i = w := by
  obtain ⟨hop, hz, hi⟩ := decode_ok_iff_fields.1 h
  have harg : i.argument = argField w := (congrArg Instr.argument hi).trans (Mnemonic.argument_build hz)
  rw [encode, ← hop, harg, commandWord_fields]

/-- An illegal word (rule R54) is one that is refused. -/
theorem legalWord_eq_false_iff {w : CommandWord} : legalWord w = false ↔ ∃ e, decode w = .error e := by
  rw [exists_decode_error_iff, ← legalWord_iff, Bool.not_eq_true]

/-! ### The obligations -/

/-- Settles O1: a command's argument keeps its format's must-be-zero bits zero, and the command is read back from it. -/
theorem decodeOfEncodeIsIdentity : Obligations.DecodeOfEncodeIsIdentity := decode_encode

/-- Settles O2: the opcode of a word that decodes is its command's, and the argument is what its operand widens to. -/
theorem encodeOfDecodeIsIdentity : Obligations.EncodeOfDecodeIsIdentity := fun _ _ => encode_of_decode

/-- Settles O7: each word of VE-1 is the word of the command listed there; no word of VE-2 matches a row of the table,
so each is refused. -/
theorem vectorWordsDecode : Obligations.VectorWordsDecode := by
  refine ⟨decode_encode (.c16Ld 0x0000#16), decode_encode (.c16Ld 0xFFFF#16), decode_encode (.c16B 0x31#8),
    decode_encode .c16Rd, decode_encode (.c32Ld 0x26536734#32), decode_encode (.c32B 0xFF#8), decode_encode .c32Rd,
    decode_encode (.ciKey 0x1234#16), decode_encode .ciLin, decode_encode (.ciSfc 0x00000021#32),
    decode_encode (.ciSfc 0xFFFFFFFE#32), decode_encode (.ciB 0xA5#8), fun w hw => ?_⟩
  have hillegal : legalWord w = false := by fin_cases hw <;> decide
  exact ⟨hillegal, legalWord_eq_false_iff.1 hillegal⟩

/-- Settles O16: past the end of the list there is no word to perform. -/
theorem Machine.idleBlockHoldsState : Obligations.IdleBlockHoldsState :=
  fun _ hf hend => step_idle hf (List.getElem?_eq_none hend)

end Sys2Proof
end
